-- ==== Sys2Proof/Word.lean ====
section
/-! DEFINITION. The word types of NDEC: a byte of the program store, a 64-bit program word, and the 64-bit content of a
register cell (R5, R20, R40, R60). -/

namespace Sys2Proof

/-- A byte of the program store (R40). -/
abbrev Byte := BitVec 8

/-- WORDW = 64: one packed instruction (R60). -/
abbrev Word := BitVec 64

/-- REGW = 64: the content of one register cell (R20, decision D1). -/
abbrev CellValue := BitVec 64

end Sys2Proof
end

