-- ==== Sys2Proof/Config.lean ====
section
/-! DEFINITION. The parameters of NDEC (R5): the constants of the hardware and the one run parameter ROR_POLICY. No value of
this hardware is left free: the spec names every result (R220). -/

namespace Sys2Proof

/-- NREG: the number of register cells (R5, R20). -/
abbrev Config.nreg : Nat := 2048

/-- WORDBYTES: the bytes of one program word (R5). -/
abbrev Config.wordBytes : Nat := 8

/-- The values of the parameter ROR_POLICY (R5, decision D8). -/
inductive RorPolicy where
  /-- executing ROR raises UnimplementedOpcode (R161), the default -/
  | fault
  /-- executing ROR does nothing but advance pc (R162) -/
  | nopReference
deriving DecidableEq, Repr

/-- The default of ROR_POLICY (R5, R161). -/
def Config.defaultRorPolicy : RorPolicy := .fault

end Sys2Proof
end

