-- ==== Sys2Proof/Syntax.lean ====
section
/-! DEFINITION. The instructions of NDEC: one constructor per row of spec/opcode_table.json. The operands are the unsigned
field values of the word (R7, R10, R67); their widths are checked by WellFormed.lean. -/

namespace Sys2Proof

/-- The four instructions (R70). -/
inductive Instr where
  /-- LOAD_CONST, code 57: `b` destination index, `c` 28-bit immediate (R62, R141) -/
  | loadConst (b c : Nat)
  /-- LOAD_MEM, code 46: `b` destination index, `c` source index (R63, R142) -/
  | loadMem (b c : Nat)
  /-- STORE_MEM, code 11: `b` source index, `c` destination index (R63, R143) -/
  | storeMem (b c : Nat)
  /-- ROR, code 10: four fields with no meaning beyond their values (R64, R160, R163) -/
  | ror (b c d e : Nat)
deriving DecidableEq, Repr

end Sys2Proof
end

