-- ==== Sys2Proof/WellFormed.lean ====
section
/-! DEFINITION. What an instruction's field values must satisfy to be held in a word: each below 2^width of its field
(R62, R63, R64, R67, R79). Register indices are NOT checked against 2048 here: such words decode, and fault only when they
are executed (R73, R144). -/

namespace Sys2Proof

/-- Every field value fits the width its format declares (R62 to R64). -/
def Instr.wellFormed : Instr → Bool
  | .loadConst b c => decide (b < 2 ^ 14) && decide (c < 2 ^ 28)
  | .loadMem b c => decide (b < 2 ^ 14) && decide (c < 2 ^ 14)
  | .storeMem b c => decide (b < 2 ^ 14) && decide (c < 2 ^ 14)
  | .ror b c d e =>
    decide (b < 2 ^ 14) && decide (c < 2 ^ 14) && decide (d < 2 ^ 11) && decide (e < 2 ^ 14)

end Sys2Proof
end

