-- ==== Sys2Proof/Decode.lean ====
section
/-! DEFINITION. The decoder (R60 to R73, R105 to R107, R109), total on every word and every byte list, rejecting by name;
after it the encoder (R74, R77), the format tables (R62 to R66, R70), and the host's decodeTableWord. -/

namespace Sys2Proof

/-- Why a decode fails. -/
inductive DecodeError where
  /-- fewer than eight bytes are left for a word (R45); `len` is how many there are -/
  | truncatedWord (len : Nat)
  /-- the low six bits are none of the four codes (R71, R106) -/
  | unknownOpcode (code : Nat)
deriving DecidableEq, Repr

/-! ## The decoder -/

/-- `W[hi:lo]`, an unsigned integer: `(W >> lo) & (2^width - 1)` (R6, R67). -/
def slice (w : Word) (hi lo : Nat) : Nat :=
  (w.toNat >>> lo) &&& (2 ^ (hi - lo + 1) - 1)

/-- The opcode code of a word, `W & 0x3F = W[5:0]` (R61, R105). -/
def opcodeOf (w : Word) : Nat := slice w 5 0

/-- `Decode(W)` (R105 to R107, R109). Undeclared bits are not looked at (R72). -/
def decodeWord (w : Word) : Except DecodeError Instr :=
  if opcodeOf w = 57 then .ok (.loadConst (slice w 19 6) (slice w 47 20))
  else if opcodeOf w = 46 then .ok (.loadMem (slice w 19 6) (slice w 33 20))
  else if opcodeOf w = 11 then .ok (.storeMem (slice w 19 6) (slice w 33 20))
  else if opcodeOf w = 10 then
    .ok (.ror (slice w 19 6) (slice w 33 20) (slice w 44 34) (slice w 58 45))
  else .error (.unknownOpcode (opcodeOf w))

/-- The little-endian value of a byte list, its first byte least significant (R8 MemRead, R43). -/
def littleEndian : List Byte → Nat
  | [] => 0
  | b :: bs => b.toNat + 256 * littleEndian bs

/-- The bytes of a word in file order, lowest first (R43, R83). -/
def wordBytes (w : Word) : List Byte :=
  (List.range Config.wordBytes).map fun k => BitVec.ofNat 8 (w.toNat >>> (8 * k))

/-- The decoder on bytes: it takes the first eight as one little-endian word and gives the rest back (R43, R60). -/
def decodeBytes : List Byte → Except DecodeError (Instr × List Byte)
  | b0 :: b1 :: b2 :: b3 :: b4 :: b5 :: b6 :: b7 :: rest =>
    match decodeWord (BitVec.ofNat 64 (littleEndian [b0, b1, b2, b3, b4, b5, b6, b7])) with
    | .ok i => .ok (i, rest)
    | .error e => .error e
  | short => .error (.truncatedWord short.length)

/-! ## The encoder -/

/-- The opcode code of an instruction, its field `A` (R61, R70). -/
def Instr.code : Instr → Nat
  | .loadConst _ _ => 57
  | .loadMem _ _ => 46
  | .storeMem _ _ => 11
  | .ror _ _ _ _ => 10

/-- The word of an instruction: every field OR-shifted into a zero accumulator (R62 to R64, R77). -/
def encode (i : Instr) : Word :=
  match i with
  | .loadConst b c => BitVec.ofNat 64 (i.code ||| b <<< 6 ||| c <<< 20)
  | .loadMem b c => BitVec.ofNat 64 (i.code ||| b <<< 6 ||| c <<< 20)
  | .storeMem b c => BitVec.ofNat 64 (i.code ||| b <<< 6 ||| c <<< 20)
  | .ror b c d e => BitVec.ofNat 64 (i.code ||| b <<< 6 ||| c <<< 20 ||| d <<< 34 ||| e <<< 45)

/-- The undeclared-bits mask of an instruction's format (R62, R63, R64). -/
def Instr.undeclaredMask : Instr → Word
  | .loadConst _ _ => 0xFFFF000000000000
  | .loadMem _ _ => 0xFFFFFFFC00000000
  | .storeMem _ _ => 0xFFFFFFFC00000000
  | .ror _ _ _ _ => 0xF800000000000000

/-! ## The format tables -/

/-- The field letters (R10). -/
inductive FieldName where
  | a | b | c | d | e
deriving DecidableEq, Repr

/-- A declared field: an inclusive bit range `[lo, hi]` (R65). -/
structure FieldRange where
  name : FieldName
  lo : Nat
  hi : Nat
deriving DecidableEq, Repr

/-- The number of bits of a field (R6). -/
def FieldRange.width (f : FieldRange) : Nat := f.hi - f.lo + 1

/-- One row of the fixed opcode table (R15 InstructionSpec, R70). -/
structure InstrSpec where
  mnemonic : String
  code : Nat
  fields : List FieldRange
deriving DecidableEq, Repr

/-- FMT_BC28 (R62). -/
def fmtBC28 : List FieldRange := [⟨.a, 0, 5⟩, ⟨.b, 6, 19⟩, ⟨.c, 20, 47⟩]

/-- FMT_BC14 (R63). -/
def fmtBC14 : List FieldRange := [⟨.a, 0, 5⟩, ⟨.b, 6, 19⟩, ⟨.c, 20, 33⟩]

/-- FMT_BCDE (R64). -/
def fmtBCDE : List FieldRange :=
  [⟨.a, 0, 5⟩, ⟨.b, 6, 19⟩, ⟨.c, 20, 33⟩, ⟨.d, 34, 44⟩, ⟨.e, 45, 58⟩]

/-- The fixed opcode table (R66, R70). -/
def opcodeTable : List InstrSpec :=
  [⟨"LOAD_CONST", 57, fmtBC28⟩, ⟨"LOAD_MEM", 46, fmtBC14⟩, ⟨"STORE_MEM", 11, fmtBC14⟩,
    ⟨"ROR", 10, fmtBCDE⟩]

/-- The code-to-spec lookup (R66, R106). -/
def specOfCode (code : Nat) : Option InstrSpec := opcodeTable.find? fun r => r.code == code

/-- The mnemonic-to-spec lookup (R76). -/
def specOfMnemonic (m : String) : Option InstrSpec := opcodeTable.find? fun r => r.mnemonic == m

/-- The field values of an instruction in declared order, `A` included (R67). -/
def Instr.fieldValues (i : Instr) : List (FieldName × Nat) :=
  match i with
  | .loadConst b c => [(.a, i.code), (.b, b), (.c, c)]
  | .loadMem b c => [(.a, i.code), (.b, b), (.c, c)]
  | .storeMem b c => [(.a, i.code), (.b, b), (.c, c)]
  | .ror b c d e => [(.a, i.code), (.b, b), (.c, c), (.d, d), (.e, e)]

/-! ## The host's entry -/

/-- The word of a row of spec/opcode_table.json: the low `nbits` bits of `w`, every bit above them 0 (log 11). -/
def tableWord (nbits w : Nat) : Word := BitVec.ofNat 64 (w % 2 ^ nbits)

/-- The instruction the decoder reads from the table's numbering of a word: its eight bytes in file order, decoded. -/
def decodeTableWord (nbits w : Nat) : Option Instr :=
  match decodeBytes (wordBytes (tableWord nbits w)) with
  | .ok (i, _) => some i
  | .error _ => none

end Sys2Proof
end

