-- ==== Sys2Proof/Machine/State.lean ====
section
/-! DEFINITION. The state of NDEC as plain data (R20 to R37), the faults (R170) and the refusals. -/

namespace Sys2Proof.Machine

/-- The phase of a run (R30(b), decision D15). -/
inductive Phase where
  | idle | frame | decode | execute | dump | done | faulted
deriving DecidableEq, Repr

/-- A register-index field that can be out of range; FAULT_INFO.FIELD is 1 for `b` and 2 for `c` (R177). -/
inductive IndexField where
  | b | c
deriving DecidableEq, Repr

/-- The five faults of NDEC with their information (R170, R177). A fault is first recorded in State (phase FAULTED, R182);
the step of a FAULTED machine then stops with it (log 1). All five are the spec's own faults: safe. -/
inductive Fault where
  /-- code 1, raised by stage FRAME when the byte length `len` is no multiple of 8 (R171). Safe. -/
  | truncatedWord (len : Nat)
  /-- code 2, raised by stage DECODE at word `index` whose low six bits are the unassigned `code` (R172). Safe. -/
  | unknownOpcode (index code : Nat)
  /-- code 3, raised by ROR at word `index` under ROR_POLICY = fault; `code` is 10 (R173). Safe (decision D8). -/
  | unimplementedOpcode (index code : Nat)
  /-- code 4, raised by LOAD_CONST, LOAD_MEM, STORE_MEM at word `index` (opcode `code`) when the index in `field` is 2048
  or more (R174). Safe (decision D9). -/
  | regIndexOutOfRange (index code : Nat) (field : IndexField)
  /-- code 5, raised by stage DUMP when the window is not legal (R175). Safe (decision D10). -/
  | outOfRange (winStart winEnd : Nat)
deriving DecidableEq, Repr

/-- Why a step has no meaning. -/
inductive Refusal where
  /-- an instruction without a meaning; raised by an arm of exec only, and no arm raises it. Safe. -/
  | notModelled (mnemonic : String)
  /-- raised by step in phase FAULTED with an empty fault record, a state no run reaches (log 8). Safe. -/
  | faultedWithoutRecord
deriving DecidableEq, Repr

/-- FAULT_INFO: three natural numbers (R35). -/
structure FaultInfo where
  index : Nat
  code6 : Nat
  field : Nat
deriving DecidableEq, Repr

/-- The program store as a sparse list of bytes (R29(a), R40), canonical form `Memory.wf` in Ops.lean (log 10). -/
abbrev Memory := List Host.Cell

/-- The register file: exactly 2048 cells (R20), a list with its length. -/
structure RegFile where
  cells : List CellValue
  size : cells.length = Config.nreg
deriving DecidableEq, Repr

/-- Every cell 0 (R20, R23, R110). -/
def RegFile.zero : RegFile := ⟨List.replicate Config.nreg 0, List.length_replicate⟩

/-- The state of NDEC. -/
structure State where
  /-- `x[0]` to `x[2047]` (R20) -/
  x : RegFile
  /-- the program counter, a word index (R25) -/
  pc : Nat
  /-- the decoded-program buffer `DP` (R30(a)); its length is the decode pass's loop index (R104) -/
  dp : List Instr
  /-- the phase (R30(b)) -/
  phase : Phase
  /-- the fault record (R30(c)) -/
  faultRecord : Option Fault
  /-- `STATUS.CODE`, 3 bits (R34) -/
  status : BitVec 3
  /-- `FAULT_INFO` (R35) -/
  faultInfo : FaultInfo
  /-- `DUMP`: rows (index, value) (R36) -/
  dump : List (Nat × CellValue)
  /-- `PROG`, the program store (R32, R40) -/
  prog : Memory
  /-- `PROG_LEN` in bytes (R32) -/
  progLen : Nat
  /-- `WIN_START` (R33) -/
  winStart : Nat
  /-- `WIN_END` (R33) -/
  winEnd : Nat
  /-- ROR_POLICY, a parameter of the run (R5, R12; log 4) -/
  rorPolicy : RorPolicy
deriving DecidableEq, Repr

/-- The machine right after reset (R37, R210). The inputs have no reset value in the spec: empty program, window [0, 0],
the default policy (log 3, log 4). -/
def State.reset : State where
  x := RegFile.zero
  pc := 0
  dp := []
  phase := .idle
  faultRecord := none
  status := 0
  faultInfo := ⟨0, 0, 0⟩
  dump := []
  prog := []
  progLen := 0
  winStart := 0
  winEnd := 0
  rorPolicy := Config.defaultRorPolicy

/-- What one instruction or one step answers. -/
abbrev Result := Host.Outcome State Fault Refusal

end Sys2Proof.Machine
end

