-- ==== Sys2Proof/Machine/Flags.lean ====
section
/-! DEFINITION. NDEC has no status flags and no condition codes (R28). What its status registers show is computed from the
fault record: `STATUS.CODE` (R34, R170) and `FAULT_INFO` (R35, R177). -/

namespace Sys2Proof.Machine

/-- `FAULT_INFO.FIELD` of an offending index field (R177). -/
def fieldNumber : IndexField → Nat
  | .b => 1
  | .c => 2

/-- The numeric code of a fault (R34, R170). -/
def faultCode : Fault → BitVec 3
  | .truncatedWord _ => 1
  | .unknownOpcode _ _ => 2
  | .unimplementedOpcode _ _ => 3
  | .regIndexOutOfRange _ _ _ => 4
  | .outOfRange _ _ => 5

/-- The record a fault leaves in `FAULT_INFO` (R177). -/
def faultInfoOf : Fault → FaultInfo
  | .truncatedWord len => ⟨len, 0, 0⟩
  | .unknownOpcode index code => ⟨index, code, 0⟩
  | .unimplementedOpcode index code => ⟨index, code, 0⟩
  | .regIndexOutOfRange index code field => ⟨index, code, fieldNumber field⟩
  | .outOfRange winStart winEnd => ⟨winStart, 0, winEnd⟩

/-- `STATUS.CODE` for a fault record; 0 is no fault (R34). -/
def recordStatus : Option Fault → BitVec 3
  | none => 0
  | some f => faultCode f

/-- `FAULT_INFO` for a fault record; all fields 0 without a fault (R35). -/
def recordInfo : Option Fault → FaultInfo
  | none => ⟨0, 0, 0⟩
  | some f => faultInfoOf f

end Sys2Proof.Machine
end

