-- ==== Sys2Proof/Machine/Ops.lean ====
section
/-! DEFINITION. The named operations over the program store, the register file and the run: every meaning and every stage is
written with these. -/

namespace Sys2Proof.Machine

/-! ## The program store (R40 to R45) -/

/-- What an address with no entry reads as: the byte 0 (log 10). -/
def unlistedByte : Byte := 0

/-- The byte at an offset of the program store (R40). -/
def Memory.read : Memory → Nat → Byte
  | [], _ => unlistedByte
  | (k, v) :: rest, a => if k = a then v else Memory.read rest a

/-- Set one byte, keeping the canonical form: addresses strictly rising, no entry equal to `unlistedByte`. Only the host
writes the program store (R32, R40). -/
def Memory.write : Memory → Nat → Byte → Memory
  | [], a, v => if v = unlistedByte then [] else [(a, v)]
  | (k, u) :: rest, a, v =>
    if a < k then (if v = unlistedByte then (k, u) :: rest else (a, v) :: (k, u) :: rest)
    else if a = k then (if v = unlistedByte then rest else (a, v) :: rest)
    else (k, u) :: Memory.write rest a v

/-- The canonical form of the program store. -/
def Memory.wf (m : Memory) : Bool :=
  decide (m.Pairwise fun p q => p.1 < q.1) && m.all fun p => p.2 != unlistedByte

/-- Bytes `l` written at offsets `at_`, `at_ + 1`, ... -/
def Memory.writeBytes (m : Memory) (at_ : Nat) : List Byte → Memory
  | [] => m
  | b :: bs => Memory.writeBytes (m.write at_ b) (at_ + 1) bs

/-- The program store that holds a byte stream from offset 0 (R32, R40). -/
def Memory.ofBytes (l : List Byte) : Memory := Memory.writeBytes [] 0 l

/-- `MemRead(addr, n)`: `n` bytes from `addr`, little-endian (R8). -/
def Memory.memRead (m : Memory) (addr n : Nat) : Nat :=
  littleEndian ((List.range n).map fun k => m.read (addr + k))

/-- `W_i = MemRead(8*i, 8)` (R43, R102). -/
def Memory.fetchWord (m : Memory) (i : Nat) : Word :=
  BitVec.ofNat 64 (m.memRead (Config.wordBytes * i) Config.wordBytes)

/-- `N = PROG_LEN div 8`, the number of words of the program (R102). -/
def State.nWords (s : State) : Nat := s.progLen / Config.wordBytes

/-! ## The register file (R20, R46, R48) -/

/-- The cell of a register file at an index (R20). -/
def RegFile.get (x : RegFile) (r : Fin Config.nreg) : CellValue :=
  x.cells[r.val]'(x.size.symm ▸ r.isLt)

/-- A register file with one cell set (R48). -/
def RegFile.set (x : RegFile) (r : Fin Config.nreg) (v : CellValue) : RegFile :=
  ⟨x.cells.set r.val v, List.length_set.trans x.size⟩

/-- Read of the cell `x[r]` (R8): no side effect (R48). -/
def State.cell (s : State) (r : Fin Config.nreg) : CellValue := s.x.get r

/-- `x[r] <- v` (R8): that cell alone changes (R48). -/
def State.writeCell (s : State) (r : Fin Config.nreg) (v : CellValue) : State :=
  { s with x := s.x.set r v }

/-- `zext_REGW` of an immediate (R8, R68). -/
def zextImm (c : Nat) : CellValue := BitVec.ofNat 64 c

/-! ## Completing an instruction, taking a fault, ending a run -/

/-- `pc <- pc + 1` (R26). -/
def State.advance (s : State) : State := { s with pc := s.pc + 1 }

/-- Enter a phase of the run (R100). -/
def State.enter (s : State) (p : Phase) : State := { s with phase := p }

/-- FAULT ENTRY, `raise F(info)`, the one operation every fault goes through (R182): the record, `STATUS.CODE` and
`FAULT_INFO` are written, `DUMP` is left empty, and the run is over. The cells, pc and DP are not touched (R114, log 2).
There is nothing to return from: R185. -/
def State.raise (s : State) (f : Fault) : State :=
  { s with
    faultRecord := some f
    status := faultCode f
    faultInfo := faultInfoOf f
    dump := []
    phase := .faulted }

/-- The end of a run without a fault: `STATUS.CODE` is 0 and `DUMP` holds the rows (R34, R36, R121). -/
def State.finish (s : State) (rows : List (Nat × CellValue)) : State :=
  { s with dump := rows, status := 0, phase := .done }

/-- `DP[i] <- Decode(W_i)` for the next `i` (R104). -/
def State.appendDecoded (s : State) (i : Instr) : State := { s with dp := s.dp ++ [i] }

/-- The start of the execute pass: every cell 0 and `pc = 0` (R110). -/
def State.beginExecute (s : State) : State :=
  { s with x := RegFile.zero, pc := 0, phase := .execute }

/-- The start of a run: everything but the inputs takes its reset value, and the run is in FRAME (R37, R210). -/
def State.startRun (s : State) : State :=
  { State.reset with
    prog := s.prog
    progLen := s.progLen
    winStart := s.winStart
    winEnd := s.winEnd
    rorPolicy := s.rorPolicy
    phase := .frame }

/-! ## The output window (R115, R119) -/

/-- The legal windows: `WIN_START <= WIN_END <= 2047` (R33, R115). -/
def windowLegal (winStart winEnd : Nat) : Bool :=
  decide (winStart ≤ winEnd) && decide (winEnd ≤ 2047)

/-- `[(i, x[i]) for i from WIN_START to WIN_END ascending]` (R119). -/
def dumpRows (x : RegFile) (winStart winEnd : Nat) : List (Nat × CellValue) :=
  (List.range' winStart (winEnd + 1 - winStart)).filterMap fun i => x.cells[i]?.map fun v => (i, v)

/-! ## The host between runs (R13, R216) -/

/-- What the host supplies for a run (R13, R216). -/
structure RunInputs where
  prog : List Byte
  winStart : Nat
  winEnd : Nat
  rorPolicy : RorPolicy
deriving DecidableEq, Repr

/-- A run is under way: the host can do nothing to the machine (R13, R192, decision D15). -/
def State.running (s : State) : Bool :=
  match s.phase with
  | .idle => false
  | .frame => true
  | .decode => true
  | .execute => true
  | .dump => true
  | .done => false
  | .faulted => false

/-- The host writes the inputs and lets a new run begin at the next step; a running NDEC is not affected (R13, R32, R33,
R185; log 9). -/
def State.hostSupply (s : State) (inp : RunInputs) : State :=
  if s.running then s
  else
    { s with
      prog := Memory.ofBytes inp.prog
      progLen := inp.prog.length
      winStart := inp.winStart
      winEnd := inp.winEnd
      rorPolicy := inp.rorPolicy
      phase := .idle }

/-- The one-word program `w`, decoded and about to execute; where `w` decodes to nothing, the decode pass is about to
reject it (R100, R106; log 6). -/
def State.placeWord (s : State) (w : Word) : State :=
  match decodeWord w with
  | .ok i =>
    { s with
      prog := Memory.ofBytes (wordBytes w), progLen := Config.wordBytes
      dp := [i], pc := 0, phase := .execute }
  | .error _ =>
    { s with
      prog := Memory.ofBytes (wordBytes w), progLen := Config.wordBytes
      dp := [], pc := 0, phase := .decode }

end Sys2Proof.Machine
end

