-- ==== Sys2Proof/Machine/Operands.lean ====
section
/-! DEFINITION. The one operand form of NDEC: register-direct, the cell index a literal field of the instruction (R69, R145),
with the index check of R144. The other operand, LOAD_CONST's immediate, is `zextImm` in Ops.lean (R68). -/

namespace Sys2Proof.Machine

/-- The cell that an index field names: none for 2048 and more (R49, R144). Never wrapped, never clamped. -/
def cellIndex (n : Nat) : Option (Fin Config.nreg) :=
  if h : n < Config.nreg then some ⟨n, h⟩ else none

/-- Go on with the cell that field `f` of the opcode `code` names; an index of 2048 or more raises RegIndexOutOfRange and
nothing of the instruction happens (R114, R144). -/
def withCell (s : State) (code : Nat) (f : IndexField) (n : Nat) (k : Fin Config.nreg → Result) : Result :=
  match cellIndex n with
  | some r => k r
  | none => .next (s.raise (.regIndexOutOfRange s.pc code f))

end Sys2Proof.Machine
end

