-- ==== Sys2Proof/Machine/DataMovement.lean ====
section
/-! DEFINITION. LOAD_CONST, LOAD_MEM and STORE_MEM (R140 to R146). -/

namespace Sys2Proof.Machine

/-- LOAD_CONST: `x[B] <- zext_64(C)`, `pc <- pc + 1` (R141). -/
def execLoadConst (b c : Nat) (s : State) : Result :=
  withCell s 57 .b b fun rd => .next ((s.writeCell rd (zextImm c)).advance)

/-- LOAD_MEM: `x[B] <- x[C]`, `pc <- pc + 1`; `B` is checked before `C` (R142, R144). -/
def execLoadMem (b c : Nat) (s : State) : Result :=
  withCell s 46 .b b fun rd =>
    withCell s 46 .c c fun rs => .next ((s.writeCell rd (s.cell rs)).advance)

/-- STORE_MEM: `x[C] <- x[B]`, `pc <- pc + 1`; `B` is the source, `C` the destination (R143, R144). -/
def execStoreMem (b c : Nat) (s : State) : Result :=
  withCell s 11 .b b fun rs =>
    withCell s 11 .c c fun rd => .next ((s.writeCell rd (s.cell rs)).advance)

end Sys2Proof.Machine
end

