-- ==== Sys2Proof/Machine/Ror.lean ====
section
/-! DEFINITION. ROR (R160 to R163). The spec gives it no rotate and gives its fields no meaning. -/

namespace Sys2Proof.Machine

/-- ROR: under ROR_POLICY = fault it raises UnimplementedOpcode (R161), under nop_reference it only advances pc (R162).
The fields are neither read nor range-checked. -/
def execRor (_b _c _d _e : Nat) (s : State) : Result :=
  match s.rorPolicy with
  | .fault => .next (s.raise (.unimplementedOpcode s.pc 10))
  | .nopReference => .next s.advance

end Sys2Proof.Machine
end

