-- ==== Sys2Proof/Machine/Dispatch.lean ====
section
/-! DEFINITION. `Execute(code, fields)`: one arm per instruction (R113). -/

namespace Sys2Proof.Machine

def exec (i : Instr) (s : State) : Host.Outcome State Fault Refusal :=
  match i with
  | .loadConst b c => Sys2Proof.Machine.execLoadConst b c s
  | .loadMem b c => Sys2Proof.Machine.execLoadMem b c s
  | .storeMem b c => Sys2Proof.Machine.execStoreMem b c s
  | .ror b c d e => Sys2Proof.Machine.execRor b c d e s

end Sys2Proof.Machine
end

