-- ==== Sys2Proof/Machine/Stages.lean ====
section
/-! DEFINITION. The stages of a run, one function a stage (R100): FRAME, DECODE, EXECUTE, DUMP, and what an ended machine
does. Step.lean calls them. -/

namespace Sys2Proof.Machine

/-- Stage FRAME: the length check (R101). -/
def frameStage (s : State) : State :=
  if s.progLen % Config.wordBytes = 0 then s.enter .decode else s.raise (.truncatedWord s.progLen)

/-- Stage DECODE, one word a step in ascending order (R104 to R106); after the last word the execute pass starts (R108,
R110). -/
def decodeStage (s : State) : State :=
  if s.dp.length < s.nWords then
    match decodeWord (s.prog.fetchWord s.dp.length) with
    | .ok i => s.appendDecoded i
    | .error _ =>
      s.raise (.unknownOpcode s.dp.length (opcodeOf (s.prog.fetchWord s.dp.length)))
  else s.beginExecute

/-- Stage EXECUTE, one instruction a step; past the last one the run goes to DUMP (R111; log 5). -/
def executeStage (s : State) : Result :=
  match s.dp[s.pc]? with
  | some i => exec i s
  | none => .next (s.enter .dump)

/-- Stage DUMP: validate the window, then emit the rows (R115, R119). -/
def dumpStage (s : State) : State :=
  if windowLegal s.winStart s.winEnd then s.finish (dumpRows s.x s.winStart s.winEnd)
  else s.raise (.outOfRange s.winStart s.winEnd)

/-- A run that has faulted: the outcome `Fault(kind, info)`, which carries no register file (R11, R182, R184; log 1). -/
def reportFault (s : State) : Result :=
  match s.faultRecord with
  | some f => .fault f
  | none => .refused .faultedWithoutRecord

end Sys2Proof.Machine
end

