-- ==== Sys2Proof/Machine/Step.lean ====
section
/-! DEFINITION. One step of NDEC, and the host's way to place an instruction where the next step runs it. -/

namespace Sys2Proof.Machine

/-- One step: what the phase of the run calls for (R100). An ended run stays as it is until the host supplies a new one
(R121, R192; log 7). -/
def step (s : State) : Host.Outcome State Fault Refusal :=
  match s.phase with
  | .idle => .next s.startRun
  | .frame => .next (frameStage s)
  | .decode => .next (decodeStage s)
  | .execute => executeStage s
  | .dump => .next (dumpStage s)
  | .done => .next s
  | .faulted => reportFault s

/-- The instruction with the table's bits `w` as the program about to run (log 6). -/
def State.withFetchWord (s : State) (nbits w : Nat) : State := s.placeWord (tableWord nbits w)

end Sys2Proof.Machine
end

