-- ==== Sys2Proof/Machine/Run.lean ====
section
/-! DEFINITION. The whole run as ONE function, a transcription of R122 written apart from `step`: from the host's inputs to the
outcome of R11. The claims compare the stepping machine with it. -/

namespace Sys2Proof.Machine

/-- The two outcomes of a run (R11). -/
inductive RunOutcome where
  | ok (dump : List (Nat × CellValue))
  | fault (f : Fault)
deriving DecidableEq, Repr

/-- The words of a byte stream; trailing bytes of an incomplete word are not looked at (R102, after the check of R101). -/
def streamWords : List Byte → List Word
  | b0 :: b1 :: b2 :: b3 :: b4 :: b5 :: b6 :: b7 :: rest =>
    BitVec.ofNat 64 (littleEndian [b0, b1, b2, b3, b4, b5, b6, b7]) :: streamWords rest
  | _ => []

/-- DECODE of R122, `i` the index of the first word of the list. -/
def decodePass (i : Nat) : List Word → Except Fault (List Instr)
  | [] => .ok []
  | w :: ws =>
    match decodeWord w with
    | .error _ => .error (.unknownOpcode i (opcodeOf w))
    | .ok ins =>
      match decodePass (i + 1) ws with
      | .error f => .error f
      | .ok rest => .ok (ins :: rest)

/-- The body of R122's loop for one instruction: the cells after it, or its fault. -/
def runInstr (policy : RorPolicy) (pc : Nat) (x : RegFile) (ins : Instr) :
    Except Fault RegFile :=
  match ins with
  | .loadConst b c =>
    if hb : b < Config.nreg then .ok (x.set ⟨b, hb⟩ (BitVec.ofNat 64 c))
    else .error (.regIndexOutOfRange pc 57 .b)
  | .loadMem b c =>
    if hb : b < Config.nreg then
      if hc : c < Config.nreg then .ok (x.set ⟨b, hb⟩ (x.get ⟨c, hc⟩)) else .error (.regIndexOutOfRange pc 46 .c)
    else .error (.regIndexOutOfRange pc 46 .b)
  | .storeMem b c =>
    if hb : b < Config.nreg then
      if hc : c < Config.nreg then .ok (x.set ⟨c, hc⟩ (x.get ⟨b, hb⟩)) else .error (.regIndexOutOfRange pc 11 .c)
    else .error (.regIndexOutOfRange pc 11 .b)
  | .ror _ _ _ _ =>
    if policy = .fault then .error (.unimplementedOpcode pc 10) else .ok x

/-- EXECUTE of R122 from `pc` on, over the instructions that are left. -/
def executePass (policy : RorPolicy) (pc : Nat) (x : RegFile) :
    List Instr → Except Fault RegFile
  | [] => .ok x
  | ins :: rest =>
    match runInstr policy pc x ins with
    | .error f => .error f
    | .ok x' => executePass policy (pc + 1) x' rest

/-- `Run(PROG, PROG_LEN, WIN_START, WIN_END, ROR_POLICY)` (R122). -/
def run (inp : RunInputs) : RunOutcome :=
  if inp.prog.length % 8 ≠ 0 then .fault (.truncatedWord inp.prog.length)
  else
    match decodePass 0 (streamWords inp.prog) with
    | .error f => .fault f
    | .ok dp =>
      match executePass inp.rorPolicy 0 (RegFile.zero) dp with
      | .error f => .fault f
      | .ok x =>
        if inp.winStart > inp.winEnd ∨ inp.winEnd > 2047 then
          .fault (.outOfRange inp.winStart inp.winEnd)
        else .ok (dumpRows x inp.winStart inp.winEnd)

/-- The number of words of the program the host supplies (R102). -/
def RunInputs.nWords (inp : RunInputs) : Nat := inp.prog.length / 8

end Sys2Proof.Machine
end

