-- ==== Sys2Proof/Machine/Toolchain.lean ====
section
/-! DEFINITION. The toolchain that produces NDEC's words (R76 to R84, R86, R87): surrounding software, not part of NDEC (R4(b)), kept
because the encoding is defined through it. Rows the spec leaves open (91 N14) are refused by name (log 12). -/

namespace Sys2Proof.Machine

/-- The failures of the toolchain (R87), and the refusal of a row the spec leaves open. -/
inductive ToolError where
  /-- the mnemonic is none of the four (R76) -/
  | unknownMnemonic (mnemonic : String)
  /-- a declared field other than `A` has no value (R78) -/
  | missingField (f : FieldName)
  /-- a value is 2^width or more (R79) -/
  | overflow (f : FieldName) (value : Nat)
  /-- the row assigns a field twice, assigns `A`, or assigns a field the format does not declare (91 N14, 93 U11) -/
  | rowLeftOpen
deriving DecidableEq, Repr

/-- What a failed assembly reports: the row that triggered the failure, counted from 0 (log 12), and the failure, which names
its field or mnemonic (R86). No word is part of it. -/
structure AssemblyFailure where
  row : Nat
  error : ToolError
deriving DecidableEq, Repr

/-- A token of a row: `field=value`, or one without "=" (R81, R82). -/
inductive Token where
  | assign (f : FieldName) (value : Nat)
  | other (text : String)
deriving DecidableEq, Repr

/-- A row: a mnemonic and its tokens (R81). -/
structure Row where
  mnemonic : String
  tokens : List Token
deriving DecidableEq, Repr

/-- Tokens are consumed only up to the first that is no assignment (R82). -/
def scanTokens : List Token → List (FieldName × Nat)
  | .assign f v :: rest => (f, v) :: scanTokens rest
  | _ => []

/-- The value a field is assigned. -/
def valueOf (values : List (FieldName × Nat)) (f : FieldName) : Option Nat :=
  (values.find? fun p => p.1 == f).map fun p => p.2

/-- The loop of `encode` over the fields that are left, with the accumulator so far (R77). -/
def encodeFields (acc : Nat) (values : List (FieldName × Nat)) : List FieldRange → Except ToolError Nat
  | [] => .ok acc
  | f :: rest =>
    match valueOf values f.name with
    | none => .error (.missingField f.name)
    | some v =>
      if v ≥ 2 ^ f.width then .error (.overflow f.name v)
      else encodeFields (acc ||| v <<< f.lo) values rest

/-- `encode(spec, values) -> Word` (R77). -/
def encodeSpec (spec : InstrSpec) (values : List (FieldName × Nat)) : Except ToolError Word :=
  (encodeFields 0 values spec.fields).map fun n => BitVec.ofNat 64 n

/-- The row is one the spec gives a result for: no duplicate, no `A`, no undeclared field (91 N14). -/
def rowSettled (spec : InstrSpec) (values : List (FieldName × Nat)) : Bool :=
  decide ((values.map fun p => p.1).Nodup) &&
    values.all fun p => p.1 != .a && (spec.fields.map fun f => f.name).contains p.1

/-- One row to its word: `A` is supplied from the spec's code (R80). -/
def assembleRow (row : Row) : Except ToolError Word :=
  match specOfMnemonic row.mnemonic with
  | none => .error (.unknownMnemonic row.mnemonic)
  | some spec =>
    if rowSettled spec (scanTokens row.tokens) then
      encodeSpec spec ((.a, spec.code) :: scanTokens row.tokens)
    else .error .rowLeftOpen

/-- The rows that are left, `k` the number of the first of them: one word a row, in row order; the first failure aborts and
reports its row (R83, R86). -/
def assembleFrom (k : Nat) : List Row → Except AssemblyFailure (List Word)
  | [] => .ok []
  | r :: rest =>
    match assembleRow r with
    | .error e => .error ⟨k, e⟩
    | .ok w =>
      match assembleFrom (k + 1) rest with
      | .error e => .error e
      | .ok ws => .ok (w :: ws)

/-- `assemble(rows) -> [Word]`, or the failure that aborted it, without any word (R81, R86). -/
def assemble (rows : List Row) : Except AssemblyFailure (List Word) := assembleFrom 0 rows

/-- The binary program file: the words in order, each as 8 bytes little-endian (R83). -/
def programFile (ws : List Word) : List Byte := ws.flatMap wordBytes

/-- A hexadecimal digit, in capitals (R84). -/
def hexDigit (n : Nat) : Char :=
  if n < 10 then Char.ofNat (48 + n) else Char.ofNat (55 + n)

/-- A byte as "0xHH" (R84). -/
def hexByte (b : Byte) : String :=
  String.ofList ['0', 'x', hexDigit (b.toNat / 16), hexDigit (b.toNat % 16)]

/-- The diagnostic line of a word: 8 byte literals, most significant first, space-separated (R84). -/
def diagnosticLine (w : Word) : String := " ".intercalate ((wordBytes w).reverse.map hexByte)

end Sys2Proof.Machine
end

