-- ==== Sys2Proof/Safety.lean ====
section
/-! DEFINITION. The terms the claims use: what stays the same over a step, what a raised fault leaves, the invariant of the
machine, and what a safe run is (R220). -/

namespace Sys2Proof.Machine

/-! ## Frames -/

/-- The host's inputs are unchanged, every byte of the program store among them (R32, R33, R40). -/
structure SameInputs (s t : State) : Prop where
  prog : t.prog = s.prog
  bytes : ∀ a, t.prog.read a = s.prog.read a
  progLen : t.progLen = s.progLen
  winStart : t.winStart = s.winStart
  winEnd : t.winEnd = s.winEnd
  rorPolicy : t.rorPolicy = s.rorPolicy

/-- The record of faults, `STATUS`, `FAULT_INFO` and `DUMP` are unchanged. -/
structure SameReports (s t : State) : Prop where
  faultRecord : t.faultRecord = s.faultRecord
  status : t.status = s.status
  faultInfo : t.faultInfo = s.faultInfo
  dump : t.dump = s.dump

/-- What an instruction that completes leaves unchanged, beside the cells and pc: the decoded program, the phase, the
reports, the inputs and every byte of the program store. -/
structure SameRest (s t : State) : Prop where
  dp : t.dp = s.dp
  phase : t.phase = s.phase
  reports : SameReports s t
  inputs : SameInputs s t

/-- The frame of an instruction whose destination is the cell `rd`: every other cell and all the rest is unchanged. -/
structure OnlyCellChanges (rd : Fin Config.nreg) (s t : State) : Prop where
  cells : ∀ r, r ≠ rd → t.cell r = s.cell r
  rest : SameRest s t

/-- What `raise f` leaves (R182), the cells, pc and the decoded program being untouched (R114). -/
structure Raised (f : Fault) (s t : State) : Prop where
  faultRecord : t.faultRecord = some f
  status : t.status = faultCode f
  faultInfo : t.faultInfo = faultInfoOf f
  dump : t.dump = []
  phase : t.phase = .faulted
  cells : ∀ r, t.cell r = s.cell r
  pc : t.pc = s.pc
  dp : t.dp = s.dp
  inputs : SameInputs s t

/-! ## The invariant -/

/-- What holds in every state of every run. -/
structure Inv (s : State) : Prop where
  /-- the program store keeps its canonical form -/
  progWf : s.prog.wf = true
  /-- `PROG` has no byte at or past `PROG_LEN` (R40) -/
  progInside : ∀ c ∈ s.prog, c.1 < s.progLen
  /-- every cell is below 2^28 (R24) -/
  cellsBounded : ∀ r, (s.cell r).toNat < 2 ^ 28
  /-- `STATUS` and `FAULT_INFO` show the fault record (R34, R35) -/
  statusAgrees : s.status = recordStatus s.faultRecord
  infoAgrees : s.faultInfo = recordInfo s.faultRecord
  /-- `0 <= pc <= N` (R25) -/
  pcBounded : s.phase ≠ .idle → s.pc ≤ s.nWords
  /-- `DP[j]` is `Decode(W_j)` for every entry, and there are at most `N` (R104) -/
  bufferShort : s.phase ≠ .idle → s.dp.length ≤ s.nWords
  bufferAgrees : s.phase ≠ .idle →
    ∀ j i, s.dp[j]? = some i → decodeWord (s.prog.fetchWord j) = .ok i
  /-- past FRAME the length is a multiple of 8 (R101) -/
  framed : s.phase = .decode ∨ s.phase = .execute ∨ s.phase = .dump ∨ s.phase = .done →
    s.progLen % 8 = 0
  /-- past DECODE every word is decoded (R108) -/
  bufferFull : s.phase = .execute ∨ s.phase = .dump ∨ s.phase = .done → s.dp.length = s.nWords
  /-- before EXECUTE no cell is written and pc is 0 (R108, R110) -/
  fresh : s.phase = .frame ∨ s.phase = .decode → (∀ r, s.cell r = 0) ∧ s.pc = 0
  freshBuffer : s.phase = .frame → s.dp = []
  /-- past EXECUTE `pc = N` (R111, R121) -/
  atEnd : s.phase = .dump ∨ s.phase = .done → s.pc = s.nWords
  /-- a fault is recorded exactly in phase FAULTED (R30(c), R182) -/
  recorded : s.phase ≠ .idle → (s.phase = .faulted ↔ s.faultRecord.isSome = true)
  /-- `DUMP` is empty until the run is DONE (R36) -/
  dumpEmpty : s.phase ≠ .idle → s.phase ≠ .done → s.dump = []
  /-- a run that is DONE has a legal window and its rows in `DUMP` (R115, R119) -/
  dumped : s.phase = .done →
    windowLegal s.winStart s.winEnd = true ∧ s.dump = dumpRows s.x s.winStart s.winEnd

/-! ## Safe runs -/

/-- Every register-index field of the instruction is at most 2047 (R144, R220). ROR has none (R163). -/
def Instr.indicesLegal : Instr → Prop
  | .loadConst b _ => b ≤ 2047
  | .loadMem b c => b ≤ 2047 ∧ c ≤ 2047
  | .storeMem b c => b ≤ 2047 ∧ c ≤ 2047
  | .ror _ _ _ _ => True

/-- The conditions under which a run ends with `Ok` (R220). -/
structure RunInputs.Succeeds (inp : RunInputs) : Prop where
  length : inp.prog.length % 8 = 0
  assigned : ∀ w ∈ streamWords inp.prog, (w &&& 0x3F).toNat ∈ [57, 46, 11, 10]
  indices : ∀ w ∈ streamWords inp.prog, ∀ i, decodeWord w = .ok i → Instr.indicesLegal i
  noRor : inp.rorPolicy = .fault → ∀ w ∈ streamWords inp.prog, (w &&& 0x3F).toNat ≠ 10
  window : inp.winStart ≤ inp.winEnd ∧ inp.winEnd ≤ 2047

/-- The value that the most recent write to cell `r` left, 0 if there is none; the instructions executed so far, the last
one first (R23, R51). -/
def lastWritten : List Instr → Nat → Nat
  | [], _ => 0
  | .loadConst b c :: older, r => if r = b then c else lastWritten older r
  | .loadMem b c :: older, r => if r = b then lastWritten older c else lastWritten older r
  | .storeMem b c :: older, r => if r = c then lastWritten older b else lastWritten older r
  | .ror _ _ _ _ :: older, r => lastWritten older r

/-- The machine `k` steps after the host supplied `inp` to a machine in state `s` (R13, R210). -/
def runFrom (s : State) (inp : RunInputs) (k : Nat) : Host.Outcome State Fault Refusal :=
  Host.Core.run Sys2Proof.core k (s.hostSupply inp)

/-- The same state with another output window (R33, R116). -/
def State.withWindow (s : State) (winStart winEnd : Nat) : State :=
  { s with winStart := winStart, winEnd := winEnd }

end Sys2Proof.Machine
end

