-- ==== Sys2Proof/Certificates/Slice0/Obligations.lean ====
section
/-! DEFINITION. The statements for the provers. Each docstring names the rule of the spec it formalises, or says that it is
derived or rests on a choice of the model. -/

open Sys2Proof Sys2Proof.Machine

/-! ## Encoding and decoding -/

/-- R75. Round trip: decoding an encoded well-formed instruction gives it back; encoding a decoded word gives the word with
its undeclared bits cleared, so exactly the words with all undeclared bits zero come back; decoding is not injective. -/
def Obligations.RoundTripOfEncodeAndDecode : Prop :=
  (∀ i : Instr, i.wellFormed = true → decodeWord (encode i) = .ok i) ∧
  (∀ (w : Word) (i : Instr), decodeWord w = .ok i →
    encode i = w &&& ~~~ i.undeclaredMask ∧ (encode i = w ↔ w &&& i.undeclaredMask = 0)) ∧
  (∃ (w w' : Word) (i : Instr), w ≠ w' ∧ decodeWord w = .ok i ∧ decodeWord w' = .ok i)

/-- R109. The decoder is total: for the four assigned codes one well-formed instruction with the word's own code and with the
fields of that code's format unpacked, UnknownOpcode for every other code; it is a function of the word alone. -/
def Obligations.DecoderIsTotalWithOneFailure : Prop :=
  ∀ w : Word,
    ((w &&& 0x3F).toNat ∈ [57, 46, 11, 10] →
      ∃ i spec, decodeWord w = .ok i ∧ i.code = (w &&& 0x3F).toNat ∧ i.wellFormed = true ∧
        specOfCode (w &&& 0x3F).toNat = some spec ∧
        i.fieldValues = spec.fields.map (fun f => (f.name, slice w f.hi f.lo))) ∧
    ((w &&& 0x3F).toNat ∉ [57, 46, 11, 10] →
      decodeWord w = .error (.unknownOpcode (w &&& 0x3F).toNat) ∧
      specOfCode (w &&& 0x3F).toNat = none)

/-- R67. Every declared field is its own contiguous bits of the word, unsigned, and the field A is the opcode code. -/
def Obligations.FieldsAreTheDeclaredBits : Prop :=
  ∀ w : Word,
    (∀ hi lo, lo ≤ hi → hi ≤ 63 → slice w hi lo = (w.extractLsb' lo (hi - lo + 1)).toNat) ∧
    (∀ i, decodeWord w = .ok i → i.code = (w.extractLsb' 0 6).toNat) ∧
    ((w.extractLsb' 0 6).toNat = 57 → decodeWord w =
      .ok (.loadConst (w.extractLsb' 6 14).toNat (w.extractLsb' 20 28).toNat)) ∧
    ((w.extractLsb' 0 6).toNat = 46 → decodeWord w =
      .ok (.loadMem (w.extractLsb' 6 14).toNat (w.extractLsb' 20 14).toNat)) ∧
    ((w.extractLsb' 0 6).toNat = 11 → decodeWord w =
      .ok (.storeMem (w.extractLsb' 6 14).toNat (w.extractLsb' 20 14).toNat)) ∧
    ((w.extractLsb' 0 6).toNat = 10 → decodeWord w =
      .ok (.ror (w.extractLsb' 6 14).toNat (w.extractLsb' 20 14).toNat
        (w.extractLsb' 34 11).toNat (w.extractLsb' 45 14).toNat))

/-- R72. A word decodes to the same instruction, with the same field values, whatever its undeclared bits hold. -/
def Obligations.UndeclaredBitsAreIgnored : Prop :=
  ∀ (w u : Word) (i : Instr), decodeWord w = .ok i →
    decodeWord (w ^^^ (u &&& i.undeclaredMask)) = .ok i

/-- R74. Every encoded word has its undeclared bits zero and carries its instruction's code in the low six bits. -/
def Obligations.EncodedWordsAreClean : Prop :=
  ∀ i : Instr, i.wellFormed = true →
    encode i &&& i.undeclaredMask = 0 ∧ (encode i &&& 0x3F).toNat = i.code

/-- Derived from R62, R63, R64 and the words D1, D2, D3, D5, D40 of 95_test_vectors.md: these words decode to these
instructions. -/
def Obligations.WordsOfTheSpecDecode : Prop :=
  decodeWord 0x0000000006400179 = .ok (.loadConst 5 100) ∧
  decodeWord 0x0000800000000039 = .ok (.loadConst 0 134217728) ∧
  decodeWord 0x00000000005001AE = .ok (.loadMem 6 5) ∧
  decodeWord 0x000000000090014B = .ok (.storeMem 5 9) ∧
  decodeWord 0x0000800C0020004A = .ok (.ror 1 2 3 4) ∧
  decodeWord 0xFFFFFFFFFFFFFFFF = .error (.unknownOpcode 63)

/-- R65. In every format the fields are in ascending and alphabetical order, inside the word, and no two overlap. -/
def Obligations.FormatsAreOrderedAndDisjoint : Prop :=
  ∀ spec ∈ opcodeTable,
    (∀ f ∈ spec.fields, f.lo ≤ f.hi ∧ f.hi ≤ 63) ∧
    spec.fields.Pairwise (fun f g => f.hi < g.lo) ∧
    (spec.fields.map (fun f => f.name) = [.a, .b, .c] ∨
      spec.fields.map (fun f => f.name) = [.a, .b, .c, .d, .e])

/-- Derived from R77: the encoder that walks the format table gives, on the field values of a well-formed instruction, the
word that `encode` gives. -/
def Obligations.TableEncoderAgreesWithEncode : Prop :=
  ∀ i : Instr, i.wellFormed = true → ∀ spec, specOfCode i.code = some spec →
    encodeSpec spec i.fieldValues = .ok (encode i)

/-- Derived from R77, R78, R79: with every field before `f` present and narrow enough, a missing `f` is MissingField and
an `f` of 2^width or more is Overflow, for every field of every format. -/
def Obligations.EncoderReportsFirstBadField : Prop :=
  ∀ spec ∈ opcodeTable, ∀ (before after : List FieldRange) (f : FieldRange) (values : List (FieldName × Nat)),
    spec.fields = before ++ f :: after →
    (∀ g ∈ before, ∃ v, valueOf values g.name = some v ∧ v < 2 ^ g.width) →
    (valueOf values f.name = none → encodeSpec spec values = .error (.missingField f.name)) ∧
    (∀ v, valueOf values f.name = some v → 2 ^ f.width ≤ v →
      encodeSpec spec values = .error (.overflow f.name v))

/-- R83. One word per row in row order; the file is the words' bytes and nothing else; and cutting the file back into words
gives the same words. -/
def Obligations.AssembledFileReloads : Prop :=
  (∀ (rows : List Row) (ws : List Word), assemble rows = .ok ws →
    ws.length = rows.length ∧
    ∀ (k : Nat) (r : Row) (w : Word), rows[k]? = some r → ws[k]? = some w → assembleRow r = .ok w) ∧
  (∀ ws : List Word,
    (programFile ws).length = 8 * ws.length ∧
    streamWords (programFile ws) = ws ∧
    ∀ (k : Nat) (w : Word), ws[k]? = some w → (Memory.ofBytes (programFile ws)).fetchWord k = w)

/-- Derived from R86 (that rows count from 0 is the model's, log 12): assembly fails exactly when some row fails, and then
the failure is the first failing row's, with that row's number; no word comes out. -/
def Obligations.AssemblyReportsTheFirstFailingRow : Prop :=
  ∀ rows : List Row,
    (∀ (k : Nat) (e : ToolError), assemble rows = .error ⟨k, e⟩ ↔
      (∃ r, rows[k]? = some r ∧ assembleRow r = .error e) ∧
      ∀ (j : Nat) (r : Row), j < k → rows[j]? = some r → ∃ w, assembleRow r = .ok w) ∧
    ((∀ r ∈ rows, ∃ w, assembleRow r = .ok w) → ∃ ws, assemble rows = .ok ws)

/-! ## The program store -/

/-- R43. A word is fetched little-endian from offset 8*i, and the byte at the lowest offset holds bits 7 to 0. -/
def Obligations.FetchIsLittleEndian : Prop :=
  (∀ (l : List Byte) (i : Nat), 8 * i + 8 ≤ l.length →
    ∀ b0 b1 b2 b3 b4 b5 b6 b7 : Byte,
    l[8 * i]? = some b0 → l[8 * i + 1]? = some b1 → l[8 * i + 2]? = some b2 →
    l[8 * i + 3]? = some b3 → l[8 * i + 4]? = some b4 → l[8 * i + 5]? = some b5 →
    l[8 * i + 6]? = some b6 → l[8 * i + 7]? = some b7 →
    ((Memory.ofBytes l).fetchWord i).toNat =
      b0.toNat + b1.toNat * 2 ^ 8 + b2.toNat * 2 ^ 16 + b3.toNat * 2 ^ 24 + b4.toNat * 2 ^ 32 +
        b5.toNat * 2 ^ 40 + b6.toNat * 2 ^ 48 + b7.toNat * 2 ^ 56 ∧
    ((Memory.ofBytes l).fetchWord i).extractLsb' 0 8 = b0) ∧
  (Memory.ofBytes [0x79, 0x01, 0x40, 0x06, 0, 0, 0, 0]).fetchWord 0 = 0x0000000006400179

/-- Derived (the canonical form of log 10): two program stores in canonical form that read the same byte everywhere are
equal. -/
def Obligations.EqualBytesMeanEqualStores : Prop :=
  ∀ m m' : Memory, m.wf = true → m'.wf = true → (∀ a, m.read a = m'.read a) → m = m'

/-! ## Reset and the start of a run -/

/-- R37. Every piece of state at reset; when the run starts the phase is FRAME. The inputs have no reset value in the rule and
are not mentioned. -/
def Obligations.ResetValues : Prop :=
  (∀ r, State.reset.cell r = 0) ∧ State.reset.pc = 0 ∧ State.reset.dp = [] ∧
  State.reset.phase = .idle ∧ State.reset.faultRecord = none ∧ State.reset.status = 0 ∧
  State.reset.faultInfo = ⟨0, 0, 0⟩ ∧ State.reset.dump = [] ∧
  (∃ t, step State.reset = .next t ∧ t.phase = .frame)

/-- R210. Starting a run, from any idle state whatever it holds, puts every piece of state but the inputs into its reset
value. -/
def Obligations.StartingARunResets : Prop :=
  ∀ s : State, s.phase = .idle →
    ∃ t, step s = .next t ∧ (∀ r, t.cell r = 0) ∧ t.pc = 0 ∧ t.dp = [] ∧ t.faultRecord = none ∧
      t.status = 0 ∧ t.faultInfo = ⟨0, 0, 0⟩ ∧ t.dump = [] ∧ t.phase = .frame ∧ SameInputs s t

/-- R211. Two runs with the same inputs go the same way step by step, whatever the machine held before. -/
def Obligations.NewRunInheritsNothing : Prop :=
  ∀ (s s' : State) (inp : RunInputs) (k : Nat), s.running = false → s'.running = false →
    runFrom s inp (k + 1) = runFrom s' inp (k + 1)

/-- Derived from R13 and D15 (the host's action is the model's, log 9): while a run is under way the host changes nothing;
between runs it sets the inputs and touches no cell, pc or report. -/
def Obligations.HostActsOnlyBetweenRuns : Prop :=
  ∀ (s : State) (inp : RunInputs),
    (s.running = true → s.hostSupply inp = s) ∧
    (s.running = false →
      (s.hostSupply inp).progLen = inp.prog.length ∧
      (∀ (a : Nat) (b : Byte), inp.prog[a]? = some b → (s.hostSupply inp).prog.read a = b) ∧
      (s.hostSupply inp).winStart = inp.winStart ∧ (s.hostSupply inp).winEnd = inp.winEnd ∧
      (s.hostSupply inp).rorPolicy = inp.rorPolicy ∧ (s.hostSupply inp).phase = .idle ∧
      (∀ r, (s.hostSupply inp).cell r = s.cell r) ∧ (s.hostSupply inp).pc = s.pc ∧
      SameReports s (s.hostSupply inp))

/-! ## FRAME and DECODE -/

/-- R101. In FRAME a length that is no multiple of 8 raises TruncatedWord with the length, before anything is decoded, and
the run stops with it; otherwise the run goes to DECODE and nothing else changes. -/
def Obligations.LengthCheckComesFirst : Prop :=
  ∀ s : State, s.phase = .frame →
    (s.progLen % 8 ≠ 0 →
      ∃ t, step s = .next t ∧ Raised (.truncatedWord s.progLen) s t ∧
        step t = .fault (.truncatedWord s.progLen)) ∧
    (s.progLen % 8 = 0 → step s = .next { s with phase := .decode })

/-- Derived from R104, R106 (the step is one word a step, log 5): in DECODE the next word in ascending order is decoded and
stored, or UnknownOpcode is raised with its 0-based index and its low six bits. -/
def Obligations.DecodePassTakesTheNextWord : Prop :=
  ∀ s : State, s.phase = .decode → s.dp.length < s.progLen / 8 →
    (∀ i, decodeWord (s.prog.fetchWord s.dp.length) = .ok i →
      step s = .next { s with dp := s.dp ++ [i] }) ∧
    ((s.prog.fetchWord s.dp.length &&& 0x3F).toNat ∉ [57, 46, 11, 10] →
      ∃ t, step s = .next t ∧
        Raised (.unknownOpcode s.dp.length (s.prog.fetchWord s.dp.length &&& 0x3F).toNat) s t)

/-- R110. The execute pass starts with every cell 0 and pc 0, when the last word is decoded. -/
def Obligations.ExecutePassStartsFromZero : Prop :=
  ∀ s : State, s.phase = .decode → s.dp.length = s.progLen / 8 →
    ∃ t, step s = .next t ∧ t.phase = .execute ∧ (∀ r, t.cell r = 0) ∧ t.pc = 0 ∧ t.dp = s.dp ∧
      SameReports s t ∧ SameInputs s t

/-- R108. In every run: until the execute pass every cell is 0, and in the execute pass and after it every word of the
program has decoded. -/
def Obligations.WholeProgramDecodesBeforeExecution : Prop :=
  ∀ (s : State) (inp : RunInputs) (k : Nat) (t : State), s.running = false →
    runFrom s inp (k + 1) = .next t →
    ((t.phase = .frame ∨ t.phase = .decode) → ∀ r, t.cell r = 0) ∧
    ((t.phase = .execute ∨ t.phase = .dump ∨ t.phase = .done) →
      ∀ w ∈ streamWords inp.prog, ∃ i, decodeWord w = .ok i)

/-! ## EXECUTE: sequencing -/

/-- Derived from R111, R113: where the bytes at pc decode to an instruction and the buffer holds the decoded program, a step
of the execute pass is `exec` of that instruction. -/
def Obligations.StepRunsTheDecodedInstruction : Prop :=
  ∀ (s : State) (i : Instr), s.phase = .execute → s.pc < s.dp.length →
    (∀ j i', s.dp[j]? = some i' → decodeWord (s.prog.fetchWord j) = .ok i') →
    decodeWord (s.prog.fetchWord s.pc) = .ok i →
    step s = exec i s

/-- Derived (the model's way to place an instruction, log 6): the instruction that the decoder reads from a table word is the
one that the next step runs, and its bytes stand in the program store at pc. -/
def Obligations.PlacedWordRunsNext : Prop :=
  ∀ (s : State) (nbits w : Nat) (i : Instr), decodeTableWord nbits w = some i →
    step (s.withFetchWord nbits w) = exec i (s.withFetchWord nbits w) ∧
    (s.withFetchWord nbits w).prog.fetchWord (s.withFetchWord nbits w).pc =
      BitVec.ofNat 64 (w % 2 ^ nbits) ∧
    (∀ r, (s.withFetchWord nbits w).cell r = s.cell r)

/-- Derived from R26. An instruction that completes advances pc by one and one that faults leaves it. That the execute pass
ends, in a step of its own, where pc is the length of DP is the model's choice (log 5); DP has N entries there by the
invariant. -/
def Obligations.PcAdvancesByOne : Prop :=
  (∀ (i : Instr) (s t : State), s.phase = .execute → exec i s = .next t →
    (t.phase = .execute ∧ t.pc = s.pc + 1) ∨ (t.phase = .faulted ∧ t.pc = s.pc)) ∧
  (∀ s : State, s.phase = .execute → s.pc = s.dp.length → step s = .next { s with phase := .dump })

/-- Derived from R220 ("never undefined behaviour"): no instruction, in any state, ends in a fault or a refusal of the
step; it answers a next state. -/
def Obligations.EveryInstructionAnswersANextState : Prop :=
  ∀ (i : Instr) (s : State), ∃ t, exec i s = .next t ∧ t.dp = s.dp ∧ SameInputs s t ∧
    (t.phase = s.phase ∨ t.phase = .faulted)

/-! ## EXECUTE: the instructions -/

/-- R141. LOAD_CONST: the encoding of its word; `x[B] <- zext(C)` and pc plus one, nothing else; RegIndexOutOfRange
when B is 2048 or more, and no other fault. -/
def Obligations.LoadConstWritesTheImmediate : Prop :=
  (∀ w : Word, (w.extractLsb' 0 6).toNat = 57 →
    decodeWord w = .ok (.loadConst (w.extractLsb' 6 14).toNat (w.extractLsb' 20 28).toNat)) ∧
  (∀ (rd : Fin Config.nreg) (c : Nat) (s : State), c < 2 ^ 28 →
    ∃ t, exec (.loadConst rd.val c) s = .next t ∧ (t.cell rd).toNat = c ∧ t.pc = s.pc + 1 ∧
      OnlyCellChanges rd s t) ∧
  (∀ (b c : Nat) (s : State), 2047 < b →
    ∃ t, exec (.loadConst b c) s = .next t ∧ Raised (.regIndexOutOfRange s.pc 57 .b) s t)

/-- R142. LOAD_MEM: the encoding of its word; `x[B] <- x[C]`, one level deep, the source unchanged, and pc plus one,
nothing else; RegIndexOutOfRange for B, else for C. -/
def Obligations.LoadMemCopiesCToB : Prop :=
  (∀ w : Word, (w.extractLsb' 0 6).toNat = 46 →
    decodeWord w = .ok (.loadMem (w.extractLsb' 6 14).toNat (w.extractLsb' 20 14).toNat)) ∧
  (∀ (rd rs : Fin Config.nreg) (s : State),
    ∃ t, exec (.loadMem rd.val rs.val) s = .next t ∧ t.cell rd = s.cell rs ∧
      t.cell rs = s.cell rs ∧ t.pc = s.pc + 1 ∧ OnlyCellChanges rd s t) ∧
  (∀ (b c : Nat) (s : State), 2047 < b →
    ∃ t, exec (.loadMem b c) s = .next t ∧ Raised (.regIndexOutOfRange s.pc 46 .b) s t) ∧
  (∀ (b c : Nat) (s : State), b ≤ 2047 → 2047 < c →
    ∃ t, exec (.loadMem b c) s = .next t ∧ Raised (.regIndexOutOfRange s.pc 46 .c) s t)

/-- R143. STORE_MEM: the encoding of its word; `x[C] <- x[B]`, the source unchanged, and pc plus one, nothing else;
RegIndexOutOfRange for B, else for C; with legal indices it is LOAD_MEM with the operands exchanged. -/
def Obligations.StoreMemCopiesBToC : Prop :=
  (∀ w : Word, (w.extractLsb' 0 6).toNat = 11 →
    decodeWord w = .ok (.storeMem (w.extractLsb' 6 14).toNat (w.extractLsb' 20 14).toNat)) ∧
  (∀ (rs rd : Fin Config.nreg) (s : State),
    ∃ t, exec (.storeMem rs.val rd.val) s = .next t ∧ t.cell rd = s.cell rs ∧
      t.cell rs = s.cell rs ∧ t.pc = s.pc + 1 ∧ OnlyCellChanges rd s t ∧
      exec (.loadMem rd.val rs.val) s = .next t) ∧
  (∀ (b c : Nat) (s : State), 2047 < b →
    ∃ t, exec (.storeMem b c) s = .next t ∧ Raised (.regIndexOutOfRange s.pc 11 .b) s t) ∧
  (∀ (b c : Nat) (s : State), b ≤ 2047 → 2047 < c →
    ∃ t, exec (.storeMem b c) s = .next t ∧ Raised (.regIndexOutOfRange s.pc 11 .c) s t)

/-- R161. Under ROR_POLICY = fault every ROR, whatever its fields, raises UnimplementedOpcode(pc, 10); no cell is written
and the run stops. -/
def Obligations.RorFaultsUnderFaultPolicy : Prop :=
  ∀ (b c d e : Nat) (s : State), s.rorPolicy = .fault →
    ∃ t, exec (.ror b c d e) s = .next t ∧ Raised (.unimplementedOpcode s.pc 10) s t ∧
      step t = .fault (.unimplementedOpcode s.pc 10)

/-- R162. Under ROR_POLICY = nop_reference every ROR, whatever its fields, only advances pc. -/
def Obligations.RorOnlyAdvancesUnderNopReference : Prop :=
  ∀ (b c d e : Nat) (s : State), s.rorPolicy = .nopReference →
    ∃ t, exec (.ror b c d e) s = .next t ∧ t.pc = s.pc + 1 ∧ (∀ r, t.cell r = s.cell r) ∧ SameRest s t

/-- R144. RegIndexOutOfRange is raised when, and only when, an instruction with an index of 2048 or more is executed; B is
checked before C and LOAD_CONST's C is not checked; nothing is written; decoder and encoder do not check. -/
def Obligations.IndexCheckAtExecuteTime : Prop :=
  (∀ (b c : Nat) (s t : State), s.phase = .execute →
    (exec (.loadConst b c) s = .next t →
      (t.phase = .faulted ↔ 2048 ≤ b) ∧
      (2048 ≤ b → Raised (.regIndexOutOfRange s.pc 57 .b) s t)) ∧
    (exec (.loadMem b c) s = .next t →
      (t.phase = .faulted ↔ 2048 ≤ b ∨ 2048 ≤ c) ∧
      (2048 ≤ b → Raised (.regIndexOutOfRange s.pc 46 .b) s t) ∧
      (b < 2048 → 2048 ≤ c → Raised (.regIndexOutOfRange s.pc 46 .c) s t)) ∧
    (exec (.storeMem b c) s = .next t →
      (t.phase = .faulted ↔ 2048 ≤ b ∨ 2048 ≤ c) ∧
      (2048 ≤ b → Raised (.regIndexOutOfRange s.pc 11 .b) s t) ∧
      (b < 2048 → 2048 ≤ c → Raised (.regIndexOutOfRange s.pc 11 .c) s t))) ∧
  (∀ b c : Nat, b < 2 ^ 14 → c < 2 ^ 14 →
    decodeWord (encode (.loadConst b c)) = .ok (.loadConst b c) ∧
    decodeWord (encode (.loadMem b c)) = .ok (.loadMem b c) ∧
    decodeWord (encode (.storeMem b c)) = .ok (.storeMem b c))

/-- Derived from R142, R143, R218: with B = C the machine changes nothing but pc. -/
def Obligations.SameCellCopyChangesOnlyPc : Prop :=
  ∀ (r : Fin Config.nreg) (s : State),
    exec (.loadMem r.val r.val) s = .next { s with pc := s.pc + 1 } ∧
    exec (.storeMem r.val r.val) s = .next { s with pc := s.pc + 1 }

/-- R51. In every run, each cell holds the value of the most recent write to it earlier in program order, or 0 if there
is none. -/
def Obligations.CellsHoldTheMostRecentWrite : Prop :=
  ∀ (s : State) (inp : RunInputs) (k : Nat) (t : State), s.running = false →
    runFrom s inp (k + 1) = .next t → t.phase = .execute ∨ t.phase = .dump ∨ t.phase = .done →
    ∀ r, (t.cell r).toNat = lastWritten (t.dp.take t.pc).reverse r.val

/-! ## Faults -/

/-- R182. `raise F(info)`: the record, `STATUS.CODE` with the code of R170, `FAULT_INFO` with the information of R177, the
empty `DUMP`, the end of the run with outcome Fault(F, info), and nothing else. -/
def Obligations.RaiseRecordsTheFault : Prop :=
  ∀ (s : State) (f : Fault),
    Raised f s (s.raise f) ∧ step (s.raise f) = .fault f ∧
    (∀ len, f = .truncatedWord len →
      (s.raise f).status = 1 ∧ (s.raise f).faultInfo = ⟨len, 0, 0⟩) ∧
    (∀ index code, f = .unknownOpcode index code →
      (s.raise f).status = 2 ∧ (s.raise f).faultInfo = ⟨index, code, 0⟩) ∧
    (∀ index code, f = .unimplementedOpcode index code →
      (s.raise f).status = 3 ∧ (s.raise f).faultInfo = ⟨index, code, 0⟩) ∧
    (∀ index code field, f = .regIndexOutOfRange index code field →
      (s.raise f).status = 4 ∧
      (s.raise f).faultInfo = ⟨index, code, if field = .b then 1 else 2⟩) ∧
    (∀ winStart winEnd, f = .outOfRange winStart winEnd →
      (s.raise f).status = 5 ∧ (s.raise f).faultInfo = ⟨winStart, 0, winEnd⟩)

/-- R114. A fault raised by an instruction ends the run there: its own write is not performed, pc is not advanced, no later
instruction executes, no dump is produced, and the outcome carries no cell. -/
def Obligations.FaultingInstructionHasNoEffect : Prop :=
  ∀ (i : Instr) (s t : State), s.phase = .execute → exec i s = .next t → t.phase = .faulted →
    ∃ f, Raised f s t ∧ ∀ k, Host.Core.run Sys2Proof.core (k + 1) t = .fault f

/-- Derived from R179; the bound of 2N + 6 steps within which the run stops is the model's (logs 1 and 5). Priority between
the stages: TruncatedWord over everything; else the first unassigned code of the program over every
execute-time fault and over the window; and a fault found under one window that is no OutOfRange is found under every window. -/
def Obligations.StageOrderDecidesTheFault : Prop :=
  ∀ (s : State) (inp : RunInputs), s.running = false →
    (inp.prog.length % 8 ≠ 0 →
      runFrom s inp (2 * inp.nWords + 6) = .fault (.truncatedWord inp.prog.length)) ∧
    (inp.prog.length % 8 = 0 → ∀ (j : Nat) (w : Word), (streamWords inp.prog)[j]? = some w →
      (w &&& 0x3F).toNat ∉ [57, 46, 11, 10] →
      (∀ j' w', j' < j → (streamWords inp.prog)[j']? = some w' →
        (w' &&& 0x3F).toNat ∈ [57, 46, 11, 10]) →
      runFrom s inp (2 * inp.nWords + 6) = .fault (.unknownOpcode j (w &&& 0x3F).toNat)) ∧
    (∀ (f : Fault) (ws we : Nat), (∀ a b, f ≠ .outOfRange a b) →
      runFrom s inp (2 * inp.nWords + 6) = .fault f →
      runFrom s { inp with winStart := ws, winEnd := we } (2 * inp.nWords + 6) = .fault f)

/-! ## DUMP -/

/-- R115. In DUMP the legal windows are exactly those with `WIN_START <= WIN_END <= 2047`; any other raises OutOfRange with
both bounds. -/
def Obligations.IllegalWindowRaisesOutOfRange : Prop :=
  ∀ s : State, s.phase = .dump →
    (s.winStart > s.winEnd ∨ s.winEnd > 2047 →
      ∃ t, step s = .next t ∧ Raised (.outOfRange s.winStart s.winEnd) s t) ∧
    (s.winStart ≤ s.winEnd → s.winEnd ≤ 2047 →
      ∃ t, step s = .next t ∧ t.phase = .done ∧ t.faultRecord = s.faultRecord)

/-- R119. The dump of a legal window: exactly `WIN_END - WIN_START + 1` rows in ascending order, one a cell, with the cell's
index and value; no cell changes. -/
def Obligations.DumpShowsTheWindow : Prop :=
  ∀ s : State, s.phase = .dump → s.winStart ≤ s.winEnd → s.winEnd ≤ 2047 →
    ∃ t, step s = .next t ∧ t.phase = .done ∧ t.status = 0 ∧
      t.dump.length = s.winEnd - s.winStart + 1 ∧
      (∀ (j : Nat) (r : Fin Config.nreg), r.val = s.winStart + j → r.val ≤ s.winEnd →
        t.dump[j]? = some (r.val, s.cell r)) ∧
      (∀ r, t.cell r = s.cell r) ∧ t.pc = s.pc ∧ t.dp = s.dp ∧ SameInputs s t

/-- R116. Outside the stage DUMP a step does the same whatever the window is. -/
def Obligations.WindowDoesNotInfluenceExecution : Prop :=
  ∀ (s : State) (ws we : Nat), s.phase ≠ .dump →
    (∀ t, step s = .next t → step (s.withWindow ws we) = .next (t.withWindow ws we)) ∧
    (∀ f, step s = .fault f → step (s.withWindow ws we) = .fault f)

/-! ## Rules of the whole machine -/

/-- Derived from R32, R33, R40, R53: no step changes an input or a byte of the program store, and no step changes an entry of
the decoded program once it is there, but for the start of a run. -/
def Obligations.InputsAndDecodedProgramAreReadOnly : Prop :=
  ∀ s t : State, step s = .next t →
    SameInputs s t ∧ (s.phase ≠ .idle → ∃ more, t.dp = s.dp ++ more ∧ (s.phase ≠ .decode → more = []))

/-- Derived from R37: the invariant holds at reset. The inputs' reset values are the model's choice (log 3). -/
def Obligations.InvariantHoldsAtReset : Prop := Inv State.reset

/-- Derived from R24, R25, R34, R35, R36, R40, R101, R104, R108, R111: every step keeps the invariant. -/
def Obligations.EveryStepKeepsTheInvariant : Prop :=
  ∀ s t : State, Inv s → step s = .next t → Inv t

/-- Derived from R13, R32, R40: what the host supplies between runs keeps the invariant. -/
def Obligations.HostSupplyKeepsTheInvariant : Prop :=
  ∀ (s : State) (inp : RunInputs), Inv s → Inv (s.hostSupply inp)

/-- Derived from R182, R185, R220: in every state with the invariant a step answers a next state, but for a faulted run, which
stops with exactly the fault recorded. No step is refused. -/
def Obligations.StepStopsOnlyWithTheRecordedFault : Prop :=
  ∀ s : State, Inv s →
    (s.phase ≠ .faulted → ∃ t, step s = .next t) ∧
    (s.phase = .faulted → ∃ f, s.faultRecord = some f ∧ step s = .fault f ∧
      s.status = faultCode f ∧ s.faultInfo = faultInfoOf f)

/-- Derived from R24: at every point of every run every cell is below 2^28. -/
def Obligations.CellsStayBelowTwoPow28 : Prop :=
  ∀ (s : State) (inp : RunInputs) (k : Nat) (t : State), s.running = false →
    runFrom s inp (k + 1) = .next t → ∀ r, (t.cell r).toNat < 2 ^ 28

/-! ## The run as a whole -/

/-- Derived from R122. The stepping machine computes exactly the one function of R122: for every program, window and policy, from any ended
or idle machine. A run of N words that ends with Ok is DONE after 2N + 5 steps with the dump of R122; any other stops with the
fault of R122 (the numbers of steps are the model's, logs 1 and 5). -/
def Obligations.MachineRefinesTheRunFunction : Prop :=
  ∀ (s : State) (inp : RunInputs), s.running = false →
    match run inp with
    | .ok rows => ∃ t, runFrom s inp (2 * inp.nWords + 5) = .next t ∧ t.phase = .done ∧ t.dump = rows ∧
        t.status = 0 ∧ t.faultRecord = none
    | .fault f => runFrom s inp (2 * inp.nWords + 6) = .fault f

/-- Derived from R111, R121: every run terminates; one that is not stopped by a fault has executed exactly N instructions. The
numbers of steps and the rest in DONE are the model's (logs 1, 5 and 7). -/
def Obligations.EveryRunTerminates : Prop :=
  ∀ (s : State) (inp : RunInputs), s.running = false →
    (∃ f, runFrom s inp (2 * inp.nWords + 6) = .fault f) ∨
    (∃ t, runFrom s inp (2 * inp.nWords + 5) = .next t ∧ t.phase = .done ∧ t.pc = inp.nWords ∧
      step t = .next t)

/-- Derived from R220 (DONE after 2N + 5 steps is the model's, log 5). A run ends with Ok exactly when the length is a multiple of 8, every code is assigned, every register index is
legal, no ROR is in the program under the default policy, and the window is legal. -/
def Obligations.RunEndsOkExactlyWhen : Prop :=
  ∀ (s : State) (inp : RunInputs), s.running = false →
    ((∃ t, runFrom s inp (2 * inp.nWords + 5) = .next t ∧ t.phase = .done) ↔ inp.Succeeds)

/-- Derived from R103 (DONE after five steps is the model's, log 5). The empty program is legal: no instruction executes and every cell of a legal window is shown as 0. -/
def Obligations.EmptyProgramDumpsZeros : Prop :=
  ∀ (s : State) (inp : RunInputs), s.running = false → inp.prog = [] → inp.winStart ≤ inp.winEnd →
    inp.winEnd ≤ 2047 →
    ∃ t, runFrom s inp 5 = .next t ∧ t.phase = .done ∧ t.pc = 0 ∧
      t.dump = (List.range' inp.winStart (inp.winEnd - inp.winStart + 1)).map (fun i => (i, 0))
end

