-- ==== Sys2Proof/Laws/Memory.lean ====
section
/-! SUPPORT. The program store: read after write, the canonical form kept by every operation, the bytes of a loaded stream, and
the words fetched from it. -/

namespace Sys2Proof.Machine

/-! ## The canonical form, as a proposition -/

theorem Memory.wf_iff {m : Memory} :
    m.wf = true ↔ (m.Pairwise fun p q => p.1 < q.1) ∧ ∀ p ∈ m, p.2 ≠ unlistedByte := by
  simp [Memory.wf]

theorem Memory.wf_nil : Memory.wf [] = true := by decide

theorem Memory.wf_cons {p : Host.Cell} {m : Memory} :
    Memory.wf (p :: m) = true ↔ (∀ q ∈ m, p.1 < q.1) ∧ p.2 ≠ unlistedByte ∧ m.wf = true := by
  simp only [Memory.wf_iff, List.pairwise_cons, List.mem_cons, forall_eq_or_imp]
  tauto

/-- An address below every entry reads as unlisted. -/
theorem Memory.read_of_lt {m : Memory} {a : Nat} (h : ∀ q ∈ m, a < q.1) : m.read a = unlistedByte := by
  induction m with
  | nil => rfl
  | cons p m ih =>
    simp only [List.mem_cons, forall_eq_or_imp] at h
    rw [Memory.read, if_neg (by omega), ih h.2]

/-- An address past every entry reads as unlisted. -/
theorem Memory.read_of_gt {m : Memory} {a : Nat} (h : ∀ q ∈ m, q.1 < a) : m.read a = unlistedByte := by
  induction m with
  | nil => rfl
  | cons p m ih =>
    simp only [List.mem_cons, forall_eq_or_imp] at h
    rw [Memory.read, if_neg (by omega), ih h.2]

/-! ## A write -/

/-- The entries after a write were there before or are the written one. -/
theorem Memory.mem_write {m : Memory} {a : Nat} {v : Byte} {q : Host.Cell} (h : q ∈ m.write a v) :
    q ∈ m ∨ q = (a, v) := by
  induction m with
  | nil =>
    simp only [Memory.write] at h
    split at h <;> simp_all
  | cons p m ih =>
    obtain ⟨k, u⟩ := p
    simp only [Memory.write] at h
    split_ifs at h <;> simp only [List.mem_cons] at h ⊢ <;> tauto

/-- A write keeps the canonical form. -/
theorem Memory.wf_write {m : Memory} (a : Nat) (v : Byte) (h : m.wf = true) : (m.write a v).wf = true := by
  induction m with
  | nil =>
    rw [Memory.write]
    split_ifs with hv
    · exact Memory.wf_nil
    · exact Memory.wf_cons.2 ⟨by simp, hv, Memory.wf_nil⟩
  | cons p m ih =>
    obtain ⟨k, u⟩ := p
    obtain ⟨hlt, hu, hm⟩ := Memory.wf_cons.1 h
    rw [Memory.write]
    split_ifs with h1 hv h2 hv
    · exact h
    · refine Memory.wf_cons.2 ⟨fun q hq => ?_, hv, h⟩
      rcases List.mem_cons.1 hq with rfl | hq
      · exact h1
      · exact lt_trans h1 (hlt q hq)
    · exact hm
    · exact Memory.wf_cons.2 ⟨fun q hq => h2 ▸ hlt q hq, hv, hm⟩
    · refine Memory.wf_cons.2 ⟨fun q hq => ?_, hu, ih hm⟩
      rcases Memory.mem_write hq with hq | rfl
      · exact hlt q hq
      · show k < a
        omega

/-- A read after a write: the written byte at its own address, the old byte everywhere else. -/
theorem Memory.read_write {m : Memory} (a b : Nat) (v : Byte) (h : m.wf = true) :
    (m.write a v).read b = if b = a then v else m.read b := by
  induction m with
  | nil =>
    rw [Memory.write]
    by_cases hv : v = unlistedByte
    · simp [hv, Memory.read]
    · simp [hv, Memory.read, eq_comm]
  | cons p m ih =>
    obtain ⟨k, u⟩ := p
    obtain ⟨hlt, hu, hm⟩ := Memory.wf_cons.1 h
    rw [Memory.write]
    by_cases h1 : a < k
    · rw [if_pos h1]
      have below : Memory.read ((k, u) :: m) a = unlistedByte := by
        rw [Memory.read, if_neg (by omega), Memory.read_of_lt (fun q hq => lt_trans h1 (hlt q hq))]
      by_cases hv : v = unlistedByte
      · rw [if_pos hv]
        split_ifs with hb
        · rw [hb, hv, below]
        · rfl
      · rw [if_neg hv, Memory.read]
        simp only [eq_comm]
    · rw [if_neg h1]
      by_cases h2 : a = k
      · subst h2
        rw [if_pos rfl]
        have above : Memory.read m a = unlistedByte := Memory.read_of_lt hlt
        by_cases hv : v = unlistedByte
        · rw [if_pos hv, Memory.read]
          by_cases hb : b = a
          · rw [if_pos hb, hb, above, hv]
          · rw [if_neg hb, if_neg (Ne.symm hb)]
        · rw [if_neg hv, Memory.read, Memory.read]
          simp only [eq_comm]
          split_ifs <;> rfl
      · rw [if_neg h2, Memory.read, Memory.read, ih hm]
        split_ifs <;> first | rfl | omega

/-! ## Writing and loading a stream of bytes -/

theorem Memory.wf_writeBytes {m : Memory} (off : Nat) (l : List Byte) (h : m.wf = true) :
    (m.writeBytes off l).wf = true := by
  induction l generalizing m off with
  | nil => exact h
  | cons b bs ih => exact ih (off + 1) (Memory.wf_write off b h)

/-- Every loaded program store is in canonical form. -/
theorem Memory.wf_ofBytes (l : List Byte) : (Memory.ofBytes l).wf = true :=
  Memory.wf_writeBytes 0 l Memory.wf_nil

/-- After writing a stream at `off`: its own bytes inside, the old bytes outside. -/
theorem Memory.read_writeBytes {m : Memory} (off : Nat) (l : List Byte) (a : Nat) (h : m.wf = true) :
    (m.writeBytes off l).read a =
      if off ≤ a then (l[a - off]?).getD (m.read a) else m.read a := by
  induction l generalizing m off with
  | nil => simp [Memory.writeBytes]
  | cons b bs ih =>
    rw [Memory.writeBytes, ih (off + 1) (Memory.wf_write off b h), Memory.read_write off a b h]
    by_cases h1 : off + 1 ≤ a
    · obtain ⟨d, rfl⟩ := Nat.exists_eq_add_of_le h1
      have e : off + 1 + d - off = d + 1 := by omega
      simp [e, show off + 1 + d ≠ off by omega, show off ≤ off + 1 + d by omega]
    · by_cases h2 : a = off
      · subst h2
        simp
      · simp [h2, h1, show ¬ off ≤ a by omega]

/-- The byte at an offset of a loaded stream (R40). -/
theorem Memory.read_ofBytes (l : List Byte) (a : Nat) :
    (Memory.ofBytes l).read a = (l[a]?).getD unlistedByte := by
  rw [Memory.ofBytes, Memory.read_writeBytes 0 l a Memory.wf_nil]
  simp [Memory.read]

theorem Memory.mem_writeBytes {m : Memory} {off : Nat} {l : List Byte} {q : Host.Cell}
    (h : q ∈ m.writeBytes off l) : q ∈ m ∨ (off ≤ q.1 ∧ q.1 < off + l.length) := by
  induction l generalizing m off with
  | nil => exact .inl h
  | cons b bs ih =>
    rcases ih h with h | h
    · rcases Memory.mem_write h with h | rfl
      · exact .inl h
      · exact .inr ⟨le_rfl, by simp⟩
    · simp only [List.length_cons]
      omega

/-- A loaded stream has no byte at or past its length (R40). -/
theorem Memory.ofBytes_inside {l : List Byte} {q : Host.Cell} (h : q ∈ Memory.ofBytes l) :
    q.1 < l.length := by
  rcases Memory.mem_writeBytes h with h | h
  · simp at h
  · omega

/-! ## Words -/

theorem littleEndian_lt (l : List Byte) : littleEndian l < 256 ^ l.length := by
  induction l with
  | nil => simp [littleEndian]
  | cons b bs ih =>
    have := b.isLt
    simp only [littleEndian, List.length_cons, Nat.pow_succ]
    omega

/-- The eight bytes of a word in file order, little-endian, are the word (R43, R83). -/
theorem littleEndian_wordBytes (w : Word) : BitVec.ofNat 64 (littleEndian (wordBytes w)) = w := by
  apply BitVec.eq_of_toNat_eq
  have h := w.isLt
  simp [wordBytes, List.range, List.range.loop, littleEndian, Nat.shiftRight_eq_div_pow]
  omega

/-- The bytes of a fetched word are those of the loaded stream (R43). -/
theorem Memory.fetchWord_ofBytes (l : List Byte) (i : Nat) :
    (Memory.ofBytes l).fetchWord i =
      BitVec.ofNat 64 (littleEndian ((List.range 8).map fun k => (l[8 * i + k]?).getD unlistedByte)) := by
  simp only [Memory.fetchWord, Memory.memRead, Memory.read_ofBytes]

/-- Fetching skips what stands in front: word `i + 1` of a stream is word `i` after its first eight bytes. -/
theorem Memory.fetchWord_ofBytes_succ (b0 b1 b2 b3 b4 b5 b6 b7 : Byte) (rest : List Byte) (i : Nat) :
    (Memory.ofBytes (b0 :: b1 :: b2 :: b3 :: b4 :: b5 :: b6 :: b7 :: rest)).fetchWord (i + 1) =
      (Memory.ofBytes rest).fetchWord i := by
  simp only [Memory.fetchWord_ofBytes]
  have e (k : Nat) : 8 * (i + 1) + k = 8 * i + k + 8 := by omega
  simp only [e, List.getElem?_cons_succ]

theorem Memory.fetchWord_ofBytes_zero (b0 b1 b2 b3 b4 b5 b6 b7 : Byte) (rest : List Byte) :
    (Memory.ofBytes (b0 :: b1 :: b2 :: b3 :: b4 :: b5 :: b6 :: b7 :: rest)).fetchWord 0 =
      BitVec.ofNat 64 (littleEndian [b0, b1, b2, b3, b4, b5, b6, b7]) := by
  simp [Memory.fetchWord_ofBytes, List.range, List.range.loop]

/-- The words the machine fetches from a loaded stream are the words of the stream (R102). -/
theorem Memory.fetchWord_streamWords (l : List Byte) (i : Nat) (w : Word)
    (h : (streamWords l)[i]? = some w) : (Memory.ofBytes l).fetchWord i = w := by
  fun_induction streamWords l generalizing i with
  | case1 b0 b1 b2 b3 b4 b5 b6 b7 rest ih =>
    cases i with
    | zero =>
      rw [Memory.fetchWord_ofBytes_zero]
      simpa using h
    | succ i =>
      rw [Memory.fetchWord_ofBytes_succ]
      exact ih i (by simpa using h)
  | case2 l _ => simp at h

/-- A stream of 8k + r bytes has k whole words (R102). -/
theorem streamWords_length (l : List Byte) : (streamWords l).length = l.length / 8 := by
  fun_induction streamWords l with
  | case1 b0 b1 b2 b3 b4 b5 b6 b7 rest ih => simp [ih]; omega
  | case2 l h =>
    rcases l with _ | ⟨a0, _ | ⟨a1, _ | ⟨a2, _ | ⟨a3, _ | ⟨a4, _ | ⟨a5, _ | ⟨a6, _ | ⟨a7, l⟩⟩⟩⟩⟩⟩⟩⟩ <;>
      first
      | exact absurd rfl (h a0 a1 a2 a3 a4 a5 a6 a7 l)
      | simp

end Sys2Proof.Machine
end

