-- ==== Sys2Proof/Laws/Decode.lean ====
section
/-! SUPPORT. The decoder: what a slice is, the cases of a decode, and the decoder on bytes. -/

namespace Sys2Proof

open Machine

/-- A slice is a remainder of a quotient (R6). -/
theorem slice_eq_mod (w : Word) (hi lo : Nat) : slice w hi lo = w.toNat / 2 ^ lo % 2 ^ (hi - lo + 1) := by
  rw [slice, Nat.and_two_pow_sub_one_eq_mod, Nat.shiftRight_eq_div_pow]

theorem slice_lt (w : Word) (hi lo : Nat) : slice w hi lo < 2 ^ (hi - lo + 1) := by
  rw [slice_eq_mod]
  exact Nat.mod_lt _ (Nat.two_pow_pos _)

/-- The opcode is `word & 0x3F` (R105). -/
theorem opcodeOf_eq_and (w : Word) : opcodeOf w = (w &&& 0x3F).toNat := by
  simp [opcodeOf, slice]

/-- The cases of a decode that succeeds (R106, R107). -/
theorem decodeWord_ok_cases {w : Word} {i : Instr} (h : decodeWord w = .ok i) :
    (opcodeOf w = 57 ∧ i = .loadConst (slice w 19 6) (slice w 47 20)) ∨
    (opcodeOf w = 46 ∧ i = .loadMem (slice w 19 6) (slice w 33 20)) ∨
    (opcodeOf w = 11 ∧ i = .storeMem (slice w 19 6) (slice w 33 20)) ∨
    (opcodeOf w = 10 ∧ i = .ror (slice w 19 6) (slice w 33 20) (slice w 44 34) (slice w 58 45)) := by
  unfold decodeWord at h
  split_ifs at h <;> cases h <;> simp [*]

/-- A decode fails with the word's own unassigned code and in no other way (R71, R109). -/
theorem decodeWord_error_cases {w : Word} {e : DecodeError} (h : decodeWord w = .error e) :
    e = .unknownOpcode (opcodeOf w) ∧ opcodeOf w ∉ [57, 46, 11, 10] := by
  unfold decodeWord at h
  split_ifs at h
  cases h
  simp [*]

theorem decodeWord_of_57 {w : Word} (h : opcodeOf w = 57) :
    decodeWord w = .ok (.loadConst (slice w 19 6) (slice w 47 20)) := by simp [decodeWord, h]

theorem decodeWord_of_46 {w : Word} (h : opcodeOf w = 46) :
    decodeWord w = .ok (.loadMem (slice w 19 6) (slice w 33 20)) := by simp [decodeWord, h]

theorem decodeWord_of_11 {w : Word} (h : opcodeOf w = 11) :
    decodeWord w = .ok (.storeMem (slice w 19 6) (slice w 33 20)) := by simp [decodeWord, h]

theorem decodeWord_of_10 {w : Word} (h : opcodeOf w = 10) :
    decodeWord w = .ok (.ror (slice w 19 6) (slice w 33 20) (slice w 44 34) (slice w 58 45)) := by
  simp [decodeWord, h]

theorem decodeWord_of_unassigned {w : Word} (h : opcodeOf w ∉ [57, 46, 11, 10]) :
    decodeWord w = .error (.unknownOpcode (opcodeOf w)) := by
  simp only [List.mem_cons, List.not_mem_nil, or_false, not_or] at h
  simp [decodeWord, h]

/-- What decodes is well-formed (R67). -/
theorem wellFormed_of_decodeWord {w : Word} {i : Instr} (h : decodeWord w = .ok i) : i.wellFormed = true := by
  rcases decodeWord_ok_cases h with ⟨_, rfl⟩ | ⟨_, rfl⟩ | ⟨_, rfl⟩ | ⟨_, rfl⟩ <;>
    simp only [Instr.wellFormed, Bool.and_eq_true, decide_eq_true_eq] <;>
    first
    | exact ⟨slice_lt w 19 6, slice_lt w 47 20⟩
    | exact ⟨slice_lt w 19 6, slice_lt w 33 20⟩
    | exact ⟨⟨⟨slice_lt w 19 6, slice_lt w 33 20⟩, slice_lt w 44 34⟩, slice_lt w 58 45⟩

/-- The bytes of a word decode to what the word decodes to, and nothing is left over (R43, R60). -/
theorem decodeBytes_wordBytes (w : Word) :
    decodeBytes (wordBytes w) = (decodeWord w).map fun i => (i, []) := by
  have h : BitVec.ofNat 64 (littleEndian (wordBytes w)) = w := littleEndian_wordBytes w
  have e : ∃ b0 b1 b2 b3 b4 b5 b6 b7, wordBytes w = [b0, b1, b2, b3, b4, b5, b6, b7] := by
    simp [wordBytes, List.range, List.range.loop]
  obtain ⟨b0, b1, b2, b3, b4, b5, b6, b7, e⟩ := e
  rw [e] at h ⊢
  rw [decodeBytes, h]
  cases decodeWord w <;> rfl

/-- The host's table word goes through the same decoder. -/
theorem decodeTableWord_eq_some {nbits w : Nat} {i : Instr} :
    decodeTableWord nbits w = some i ↔ decodeWord (tableWord nbits w) = .ok i := by
  rw [decodeTableWord, decodeBytes_wordBytes]
  cases decodeWord (tableWord nbits w) <;> simp [Except.map]

end Sys2Proof
end

