-- ==== Sys2Proof/Laws/State.lean ====
section
/-! SUPPORT. One lemma per field of State per update, each true by rfl and a simp lemma, and what each update does to a cell
and to the number of words. No later proof unfolds a record update. -/

namespace Sys2Proof.Machine

/-! ## The register file -/

@[ext] theorem RegFile.ext_get {x y : RegFile} (h : ∀ r, x.get r = y.get r) : x = y := by
  have hl : x.cells = y.cells := by
    refine List.ext_getElem (x.size.trans y.size.symm) fun i hi _ => ?_
    exact h ⟨i, x.size ▸ hi⟩
  cases x; cases y; cases hl; rfl

theorem RegFile.get_set (x : RegFile) (r q : Fin Config.nreg) (v : CellValue) :
    (x.set r v).get q = if q = r then v else x.get q := by
  simp only [RegFile.get, RegFile.set, List.getElem_set, Fin.ext_iff, eq_comm]

@[simp] theorem RegFile.get_zero (r : Fin Config.nreg) : RegFile.zero.get r = 0 := by
  simp [RegFile.get, RegFile.zero]

theorem RegFile.getElem?_cells (x : RegFile) (r : Fin Config.nreg) : x.cells[r.val]? = some (x.get r) :=
  List.getElem?_eq_getElem _

theorem RegFile.getElem?_zero (i : Nat) (h : i < Config.nreg) : RegFile.zero.cells[i]? = some 0 := by
  simp [RegFile.zero, h]

variable (s : State)

/-! ## writeCell -/

@[simp] theorem State.writeCell_x (r : Fin Config.nreg) (v : CellValue) : (s.writeCell r v).x = s.x.set r v := rfl
@[simp] theorem State.writeCell_pc (r : Fin Config.nreg) (v : CellValue) : (s.writeCell r v).pc = s.pc := rfl
@[simp] theorem State.writeCell_dp (r : Fin Config.nreg) (v : CellValue) : (s.writeCell r v).dp = s.dp := rfl
@[simp] theorem State.writeCell_phase (r : Fin Config.nreg) (v : CellValue) : (s.writeCell r v).phase = s.phase := rfl
@[simp] theorem State.writeCell_faultRecord (r : Fin Config.nreg) (v : CellValue) : (s.writeCell r v).faultRecord = s.faultRecord := rfl
@[simp] theorem State.writeCell_status (r : Fin Config.nreg) (v : CellValue) : (s.writeCell r v).status = s.status := rfl
@[simp] theorem State.writeCell_faultInfo (r : Fin Config.nreg) (v : CellValue) : (s.writeCell r v).faultInfo = s.faultInfo := rfl
@[simp] theorem State.writeCell_dump (r : Fin Config.nreg) (v : CellValue) : (s.writeCell r v).dump = s.dump := rfl
@[simp] theorem State.writeCell_prog (r : Fin Config.nreg) (v : CellValue) : (s.writeCell r v).prog = s.prog := rfl
@[simp] theorem State.writeCell_progLen (r : Fin Config.nreg) (v : CellValue) : (s.writeCell r v).progLen = s.progLen := rfl
@[simp] theorem State.writeCell_winStart (r : Fin Config.nreg) (v : CellValue) : (s.writeCell r v).winStart = s.winStart := rfl
@[simp] theorem State.writeCell_winEnd (r : Fin Config.nreg) (v : CellValue) : (s.writeCell r v).winEnd = s.winEnd := rfl
@[simp] theorem State.writeCell_rorPolicy (r : Fin Config.nreg) (v : CellValue) : (s.writeCell r v).rorPolicy = s.rorPolicy := rfl
@[simp] theorem State.writeCell_nWords (r : Fin Config.nreg) (v : CellValue) : (s.writeCell r v).nWords = s.nWords := rfl

/-! ## advance -/

@[simp] theorem State.advance_x : (s.advance).x = s.x := rfl
@[simp] theorem State.advance_pc : (s.advance).pc = s.pc + 1 := rfl
@[simp] theorem State.advance_dp : (s.advance).dp = s.dp := rfl
@[simp] theorem State.advance_phase : (s.advance).phase = s.phase := rfl
@[simp] theorem State.advance_faultRecord : (s.advance).faultRecord = s.faultRecord := rfl
@[simp] theorem State.advance_status : (s.advance).status = s.status := rfl
@[simp] theorem State.advance_faultInfo : (s.advance).faultInfo = s.faultInfo := rfl
@[simp] theorem State.advance_dump : (s.advance).dump = s.dump := rfl
@[simp] theorem State.advance_prog : (s.advance).prog = s.prog := rfl
@[simp] theorem State.advance_progLen : (s.advance).progLen = s.progLen := rfl
@[simp] theorem State.advance_winStart : (s.advance).winStart = s.winStart := rfl
@[simp] theorem State.advance_winEnd : (s.advance).winEnd = s.winEnd := rfl
@[simp] theorem State.advance_rorPolicy : (s.advance).rorPolicy = s.rorPolicy := rfl
@[simp] theorem State.advance_nWords : (s.advance).nWords = s.nWords := rfl
@[simp] theorem State.advance_cell (q : Fin Config.nreg) : (s.advance).cell q = s.cell q := rfl

/-! ## enter -/

@[simp] theorem State.enter_x (p : Phase) : (s.enter p).x = s.x := rfl
@[simp] theorem State.enter_pc (p : Phase) : (s.enter p).pc = s.pc := rfl
@[simp] theorem State.enter_dp (p : Phase) : (s.enter p).dp = s.dp := rfl
@[simp] theorem State.enter_phase (p : Phase) : (s.enter p).phase = p := rfl
@[simp] theorem State.enter_faultRecord (p : Phase) : (s.enter p).faultRecord = s.faultRecord := rfl
@[simp] theorem State.enter_status (p : Phase) : (s.enter p).status = s.status := rfl
@[simp] theorem State.enter_faultInfo (p : Phase) : (s.enter p).faultInfo = s.faultInfo := rfl
@[simp] theorem State.enter_dump (p : Phase) : (s.enter p).dump = s.dump := rfl
@[simp] theorem State.enter_prog (p : Phase) : (s.enter p).prog = s.prog := rfl
@[simp] theorem State.enter_progLen (p : Phase) : (s.enter p).progLen = s.progLen := rfl
@[simp] theorem State.enter_winStart (p : Phase) : (s.enter p).winStart = s.winStart := rfl
@[simp] theorem State.enter_winEnd (p : Phase) : (s.enter p).winEnd = s.winEnd := rfl
@[simp] theorem State.enter_rorPolicy (p : Phase) : (s.enter p).rorPolicy = s.rorPolicy := rfl
@[simp] theorem State.enter_nWords (p : Phase) : (s.enter p).nWords = s.nWords := rfl
@[simp] theorem State.enter_cell (p : Phase) (q : Fin Config.nreg) : (s.enter p).cell q = s.cell q := rfl

/-! ## raise -/

@[simp] theorem State.raise_x (f : Fault) : (s.raise f).x = s.x := rfl
@[simp] theorem State.raise_pc (f : Fault) : (s.raise f).pc = s.pc := rfl
@[simp] theorem State.raise_dp (f : Fault) : (s.raise f).dp = s.dp := rfl
@[simp] theorem State.raise_phase (f : Fault) : (s.raise f).phase = .faulted := rfl
@[simp] theorem State.raise_faultRecord (f : Fault) : (s.raise f).faultRecord = some f := rfl
@[simp] theorem State.raise_status (f : Fault) : (s.raise f).status = faultCode f := rfl
@[simp] theorem State.raise_faultInfo (f : Fault) : (s.raise f).faultInfo = faultInfoOf f := rfl
@[simp] theorem State.raise_dump (f : Fault) : (s.raise f).dump = [] := rfl
@[simp] theorem State.raise_prog (f : Fault) : (s.raise f).prog = s.prog := rfl
@[simp] theorem State.raise_progLen (f : Fault) : (s.raise f).progLen = s.progLen := rfl
@[simp] theorem State.raise_winStart (f : Fault) : (s.raise f).winStart = s.winStart := rfl
@[simp] theorem State.raise_winEnd (f : Fault) : (s.raise f).winEnd = s.winEnd := rfl
@[simp] theorem State.raise_rorPolicy (f : Fault) : (s.raise f).rorPolicy = s.rorPolicy := rfl
@[simp] theorem State.raise_nWords (f : Fault) : (s.raise f).nWords = s.nWords := rfl
@[simp] theorem State.raise_cell (f : Fault) (q : Fin Config.nreg) : (s.raise f).cell q = s.cell q := rfl

/-! ## finish -/

@[simp] theorem State.finish_x (rows : List (Nat × CellValue)) : (s.finish rows).x = s.x := rfl
@[simp] theorem State.finish_pc (rows : List (Nat × CellValue)) : (s.finish rows).pc = s.pc := rfl
@[simp] theorem State.finish_dp (rows : List (Nat × CellValue)) : (s.finish rows).dp = s.dp := rfl
@[simp] theorem State.finish_phase (rows : List (Nat × CellValue)) : (s.finish rows).phase = .done := rfl
@[simp] theorem State.finish_faultRecord (rows : List (Nat × CellValue)) : (s.finish rows).faultRecord = s.faultRecord := rfl
@[simp] theorem State.finish_status (rows : List (Nat × CellValue)) : (s.finish rows).status = 0 := rfl
@[simp] theorem State.finish_faultInfo (rows : List (Nat × CellValue)) : (s.finish rows).faultInfo = s.faultInfo := rfl
@[simp] theorem State.finish_dump (rows : List (Nat × CellValue)) : (s.finish rows).dump = rows := rfl
@[simp] theorem State.finish_prog (rows : List (Nat × CellValue)) : (s.finish rows).prog = s.prog := rfl
@[simp] theorem State.finish_progLen (rows : List (Nat × CellValue)) : (s.finish rows).progLen = s.progLen := rfl
@[simp] theorem State.finish_winStart (rows : List (Nat × CellValue)) : (s.finish rows).winStart = s.winStart := rfl
@[simp] theorem State.finish_winEnd (rows : List (Nat × CellValue)) : (s.finish rows).winEnd = s.winEnd := rfl
@[simp] theorem State.finish_rorPolicy (rows : List (Nat × CellValue)) : (s.finish rows).rorPolicy = s.rorPolicy := rfl
@[simp] theorem State.finish_nWords (rows : List (Nat × CellValue)) : (s.finish rows).nWords = s.nWords := rfl
@[simp] theorem State.finish_cell (rows : List (Nat × CellValue)) (q : Fin Config.nreg) : (s.finish rows).cell q = s.cell q := rfl

/-! ## appendDecoded -/

@[simp] theorem State.appendDecoded_x (i : Instr) : (s.appendDecoded i).x = s.x := rfl
@[simp] theorem State.appendDecoded_pc (i : Instr) : (s.appendDecoded i).pc = s.pc := rfl
@[simp] theorem State.appendDecoded_dp (i : Instr) : (s.appendDecoded i).dp = s.dp ++ [i] := rfl
@[simp] theorem State.appendDecoded_phase (i : Instr) : (s.appendDecoded i).phase = s.phase := rfl
@[simp] theorem State.appendDecoded_faultRecord (i : Instr) : (s.appendDecoded i).faultRecord = s.faultRecord := rfl
@[simp] theorem State.appendDecoded_status (i : Instr) : (s.appendDecoded i).status = s.status := rfl
@[simp] theorem State.appendDecoded_faultInfo (i : Instr) : (s.appendDecoded i).faultInfo = s.faultInfo := rfl
@[simp] theorem State.appendDecoded_dump (i : Instr) : (s.appendDecoded i).dump = s.dump := rfl
@[simp] theorem State.appendDecoded_prog (i : Instr) : (s.appendDecoded i).prog = s.prog := rfl
@[simp] theorem State.appendDecoded_progLen (i : Instr) : (s.appendDecoded i).progLen = s.progLen := rfl
@[simp] theorem State.appendDecoded_winStart (i : Instr) : (s.appendDecoded i).winStart = s.winStart := rfl
@[simp] theorem State.appendDecoded_winEnd (i : Instr) : (s.appendDecoded i).winEnd = s.winEnd := rfl
@[simp] theorem State.appendDecoded_rorPolicy (i : Instr) : (s.appendDecoded i).rorPolicy = s.rorPolicy := rfl
@[simp] theorem State.appendDecoded_nWords (i : Instr) : (s.appendDecoded i).nWords = s.nWords := rfl
@[simp] theorem State.appendDecoded_cell (i : Instr) (q : Fin Config.nreg) : (s.appendDecoded i).cell q = s.cell q := rfl

/-! ## beginExecute -/

@[simp] theorem State.beginExecute_x : (s.beginExecute).x = RegFile.zero := rfl
@[simp] theorem State.beginExecute_pc : (s.beginExecute).pc = 0 := rfl
@[simp] theorem State.beginExecute_dp : (s.beginExecute).dp = s.dp := rfl
@[simp] theorem State.beginExecute_phase : (s.beginExecute).phase = .execute := rfl
@[simp] theorem State.beginExecute_faultRecord : (s.beginExecute).faultRecord = s.faultRecord := rfl
@[simp] theorem State.beginExecute_status : (s.beginExecute).status = s.status := rfl
@[simp] theorem State.beginExecute_faultInfo : (s.beginExecute).faultInfo = s.faultInfo := rfl
@[simp] theorem State.beginExecute_dump : (s.beginExecute).dump = s.dump := rfl
@[simp] theorem State.beginExecute_prog : (s.beginExecute).prog = s.prog := rfl
@[simp] theorem State.beginExecute_progLen : (s.beginExecute).progLen = s.progLen := rfl
@[simp] theorem State.beginExecute_winStart : (s.beginExecute).winStart = s.winStart := rfl
@[simp] theorem State.beginExecute_winEnd : (s.beginExecute).winEnd = s.winEnd := rfl
@[simp] theorem State.beginExecute_rorPolicy : (s.beginExecute).rorPolicy = s.rorPolicy := rfl
@[simp] theorem State.beginExecute_nWords : (s.beginExecute).nWords = s.nWords := rfl
@[simp] theorem State.beginExecute_cell (r : Fin Config.nreg) : s.beginExecute.cell r = 0 := by
  simp [State.cell, State.beginExecute]

/-! ## startRun -/

@[simp] theorem State.startRun_x : (s.startRun).x = RegFile.zero := rfl
@[simp] theorem State.startRun_pc : (s.startRun).pc = 0 := rfl
@[simp] theorem State.startRun_dp : (s.startRun).dp = [] := rfl
@[simp] theorem State.startRun_phase : (s.startRun).phase = .frame := rfl
@[simp] theorem State.startRun_faultRecord : (s.startRun).faultRecord = none := rfl
@[simp] theorem State.startRun_status : (s.startRun).status = 0 := rfl
@[simp] theorem State.startRun_faultInfo : (s.startRun).faultInfo = ⟨0, 0, 0⟩ := rfl
@[simp] theorem State.startRun_dump : (s.startRun).dump = [] := rfl
@[simp] theorem State.startRun_prog : (s.startRun).prog = s.prog := rfl
@[simp] theorem State.startRun_progLen : (s.startRun).progLen = s.progLen := rfl
@[simp] theorem State.startRun_winStart : (s.startRun).winStart = s.winStart := rfl
@[simp] theorem State.startRun_winEnd : (s.startRun).winEnd = s.winEnd := rfl
@[simp] theorem State.startRun_rorPolicy : (s.startRun).rorPolicy = s.rorPolicy := rfl
@[simp] theorem State.startRun_nWords : (s.startRun).nWords = s.nWords := rfl
@[simp] theorem State.startRun_cell (r : Fin Config.nreg) : s.startRun.cell r = 0 := by
  simp [State.cell, State.startRun, State.reset]

/-- The cell that is written holds the value written, and no other cell changes (R48). -/
theorem State.cell_writeCell (r q : Fin Config.nreg) (v : CellValue) :
    (s.writeCell r v).cell q = if q = r then v else s.cell q := by
  simp only [State.cell, State.writeCell, RegFile.get_set]

@[simp] theorem State.cell_writeCell_self (r : Fin Config.nreg) (v : CellValue) :
    (s.writeCell r v).cell r = v := by simp [State.cell_writeCell]

theorem State.cell_writeCell_ne (r q : Fin Config.nreg) (v : CellValue) (h : q ≠ r) :
    (s.writeCell r v).cell q = s.cell q := by simp [State.cell_writeCell, h]

/-- Writing a cell with its own value changes nothing (R218). -/
theorem State.writeCell_cell_self (r : Fin Config.nreg) : s.writeCell r (s.cell r) = s := by
  have h : s.x.set r (s.x.get r) = s.x := by
    refine RegFile.ext_get fun q => ?_
    rw [RegFile.get_set]
    split_ifs with hq
    · rw [hq]
    · rfl
  simp [State.writeCell, State.cell, h]

/-- Equal cells are an equal register file (R20). -/
theorem State.x_eq_of_cells {s t : State} (h : ∀ r, s.cell r = t.cell r) : s.x = t.x :=
  RegFile.ext_get h

end Sys2Proof.Machine
end

