-- ==== Sys2Proof/Laws/Ops.lean ====
section
/-! SUPPORT. What each shared operation and each instruction can do, said once; and what a step can do in each phase. -/

namespace Sys2Proof.Machine

/-! ## Operands (R144) -/

theorem cellIndex_of_lt {n : Nat} (h : n < Config.nreg) : cellIndex n = some ⟨n, h⟩ := dif_pos h

theorem cellIndex_of_ge {n : Nat} (h : Config.nreg ≤ n) : cellIndex n = none := dif_neg (by omega)

/-- An index of 2047 or less names its cell. -/
theorem withCell_of_lt {s : State} {code : Nat} {f : IndexField} {n : Nat} {k : Fin Config.nreg → Result}
    (h : n < Config.nreg) : withCell s code f n k = k ⟨n, h⟩ := by
  rw [withCell, cellIndex_of_lt h]

/-- An index of 2048 or more raises RegIndexOutOfRange. -/
theorem withCell_of_ge {s : State} {code : Nat} {f : IndexField} {n : Nat} {k : Fin Config.nreg → Result}
    (h : Config.nreg ≤ n) : withCell s code f n k = .next (s.raise (.regIndexOutOfRange s.pc code f)) := by
  rw [withCell, cellIndex_of_ge h]

/-- The immediate is the cell's value, unsigned (R68). -/
theorem zextImm_toNat {c : Nat} (h : c < 2 ^ 28) : (zextImm c).toNat = c := by
  rw [zextImm, BitVec.toNat_ofNat, Nat.mod_eq_of_lt (by omega)]

/-! ## Instructions -/

/-- Everything an instruction can do: raise an execute-time fault, write one cell and advance pc, or only advance pc. It
always answers a next state. -/
theorem exec_cases (i : Instr) (s : State) :
    (∃ f, exec i s = .next (s.raise f) ∧
      (f = .unimplementedOpcode s.pc 10 ∨ ∃ field, f = .regIndexOutOfRange s.pc i.code field)) ∨
    (∃ rd v, exec i s = .next ((s.writeCell rd v).advance) ∧
      ((∃ b c, i = .loadConst b c ∧ v = zextImm c) ∨ ∃ rs, v = s.cell rs)) ∨
    (exec i s = .next s.advance) := by
  cases i with
  | loadConst b c =>
    rcases Nat.lt_or_ge b Config.nreg with hb | hb
    · exact .inr (.inl ⟨⟨b, hb⟩, zextImm c, withCell_of_lt hb, .inl ⟨b, c, rfl, rfl⟩⟩)
    · exact .inl ⟨_, withCell_of_ge hb, .inr ⟨.b, rfl⟩⟩
  | loadMem b c =>
    rcases Nat.lt_or_ge b Config.nreg with hb | hb
    · rcases Nat.lt_or_ge c Config.nreg with hc | hc
      · exact .inr (.inl ⟨⟨b, hb⟩, s.cell ⟨c, hc⟩, (withCell_of_lt hb).trans (withCell_of_lt hc),
          .inr ⟨_, rfl⟩⟩)
      · exact .inl ⟨_, (withCell_of_lt hb).trans (withCell_of_ge hc), .inr ⟨.c, rfl⟩⟩
    · exact .inl ⟨_, withCell_of_ge hb, .inr ⟨.b, rfl⟩⟩
  | storeMem b c =>
    rcases Nat.lt_or_ge b Config.nreg with hb | hb
    · rcases Nat.lt_or_ge c Config.nreg with hc | hc
      · exact .inr (.inl ⟨⟨c, hc⟩, s.cell ⟨b, hb⟩, (withCell_of_lt hb).trans (withCell_of_lt hc),
          .inr ⟨_, rfl⟩⟩)
      · exact .inl ⟨_, (withCell_of_lt hb).trans (withCell_of_ge hc), .inr ⟨.c, rfl⟩⟩
    · exact .inl ⟨_, withCell_of_ge hb, .inr ⟨.b, rfl⟩⟩
  | ror b c d e =>
    show (∃ f, execRor b c d e s = _ ∧ _) ∨ _ ∨ execRor b c d e s = _
    rw [execRor]
    cases s.rorPolicy with
    | fault => exact .inl ⟨_, rfl, .inl rfl⟩
    | nopReference => exact .inr (.inr rfl)

/-! ## A step, phase by phase (R100) -/

theorem step_of_idle {s : State} (h : s.phase = .idle) : step s = .next s.startRun := by simp [step, h]

theorem step_of_frame {s : State} (h : s.phase = .frame) : step s = .next (frameStage s) := by
  simp [step, h]

theorem step_of_decode {s : State} (h : s.phase = .decode) : step s = .next (decodeStage s) := by
  simp [step, h]

theorem step_of_execute {s : State} (h : s.phase = .execute) : step s = executeStage s := by
  simp [step, h]

theorem step_of_dump {s : State} (h : s.phase = .dump) : step s = .next (dumpStage s) := by
  simp [step, h]

theorem step_of_done {s : State} (h : s.phase = .done) : step s = .next s := by simp [step, h]

theorem step_of_faulted {s : State} {f : Fault} (h : s.phase = .faulted) (hf : s.faultRecord = some f) :
    step s = .fault f := by simp [step, h, reportFault, hf]

/-- A raised fault is what the next step stops with (R182). -/
theorem step_raise (s : State) (f : Fault) : step (s.raise f) = .fault f := step_of_faulted rfl rfl

theorem frameStage_of_multiple {s : State} (h : s.progLen % 8 = 0) : frameStage s = s.enter .decode := if_pos h

theorem frameStage_of_rest {s : State} (h : s.progLen % 8 ≠ 0) :
    frameStage s = s.raise (.truncatedWord s.progLen) := if_neg h

theorem decodeStage_of_ok {s : State} {i : Instr} (h : s.dp.length < s.nWords)
    (hi : decodeWord (s.prog.fetchWord s.dp.length) = .ok i) : decodeStage s = s.appendDecoded i := by
  rw [decodeStage, if_pos h, hi]

theorem decodeStage_of_error {s : State} {e : DecodeError} (h : s.dp.length < s.nWords)
    (he : decodeWord (s.prog.fetchWord s.dp.length) = .error e) :
    decodeStage s =
      s.raise (.unknownOpcode s.dp.length (opcodeOf (s.prog.fetchWord s.dp.length))) := by
  rw [decodeStage, if_pos h, he]

theorem decodeStage_of_end {s : State} (h : s.nWords ≤ s.dp.length) : decodeStage s = s.beginExecute :=
  if_neg (by omega)

theorem executeStage_of_some {s : State} {i : Instr} (h : s.dp[s.pc]? = some i) : executeStage s = exec i s := by
  rw [executeStage, h]

theorem executeStage_of_end {s : State} (h : s.dp.length ≤ s.pc) : executeStage s = .next (s.enter .dump) := by
  rw [executeStage, List.getElem?_eq_none h]

theorem windowLegal_iff {a b : Nat} : windowLegal a b = true ↔ a ≤ b ∧ b ≤ 2047 := by
  simp [windowLegal]

theorem dumpStage_of_legal {s : State} (h : windowLegal s.winStart s.winEnd = true) :
    dumpStage s = s.finish (dumpRows s.x s.winStart s.winEnd) := if_pos h

theorem dumpStage_of_illegal {s : State} (h : windowLegal s.winStart s.winEnd = false) :
    dumpStage s = s.raise (.outOfRange s.winStart s.winEnd) := if_neg (by simp [h])

/-- Everything a step that answers a next state can do (R100, R104, R111, R115, R121). -/
theorem step_cases {s t : State} (h : step s = .next t) :
    (s.phase = .idle ∧ t = s.startRun) ∨
    (s.phase = .frame ∧ s.progLen % 8 = 0 ∧ t = s.enter .decode) ∨
    (s.phase = .frame ∧ s.progLen % 8 ≠ 0 ∧ t = s.raise (.truncatedWord s.progLen)) ∨
    (∃ i, s.phase = .decode ∧ s.dp.length < s.nWords ∧
      decodeWord (s.prog.fetchWord s.dp.length) = .ok i ∧ t = s.appendDecoded i) ∨
    (s.phase = .decode ∧ s.dp.length < s.nWords ∧
      opcodeOf (s.prog.fetchWord s.dp.length) ∉ [57, 46, 11, 10] ∧
      t = s.raise (.unknownOpcode s.dp.length (opcodeOf (s.prog.fetchWord s.dp.length)))) ∨
    (s.phase = .decode ∧ s.nWords ≤ s.dp.length ∧ t = s.beginExecute) ∨
    (∃ i, s.phase = .execute ∧ s.dp[s.pc]? = some i ∧ exec i s = .next t) ∨
    (s.phase = .execute ∧ s.dp.length ≤ s.pc ∧ t = s.enter .dump) ∨
    (s.phase = .dump ∧ windowLegal s.winStart s.winEnd = true ∧
      t = s.finish (dumpRows s.x s.winStart s.winEnd)) ∨
    (s.phase = .dump ∧ windowLegal s.winStart s.winEnd = false ∧
      t = s.raise (.outOfRange s.winStart s.winEnd)) ∨
    (s.phase = .done ∧ t = s) := by
  cases hp : s.phase with
  | idle =>
    rw [step_of_idle hp] at h
    cases h; simp
  | frame =>
    rw [step_of_frame hp] at h
    by_cases hl : s.progLen % 8 = 0
    · rw [frameStage_of_multiple hl] at h; cases h; simp [hl]
    · rw [frameStage_of_rest hl] at h; cases h; simp [hl]
  | decode =>
    rw [step_of_decode hp] at h
    rcases Nat.lt_or_ge s.dp.length s.nWords with hl | hl
    · cases hd : decodeWord (s.prog.fetchWord s.dp.length) with
      | ok i => rw [decodeStage_of_ok hl hd] at h; cases h; simp [hl]
      | error e =>
        rw [decodeStage_of_error hl hd] at h; cases h
        have hc := (decodeWord_error_cases hd).2
        simp only [List.mem_cons, List.not_mem_nil, or_false, not_or] at hc
        simp [hl, hc]
    · rw [decodeStage_of_end hl] at h; cases h; simp [hl]
  | execute =>
    rw [step_of_execute hp] at h
    cases hi : s.dp[s.pc]? with
    | some i => rw [executeStage_of_some hi] at h; simp [h]
    | none =>
      have hl := List.getElem?_eq_none_iff.1 hi
      rw [executeStage_of_end hl] at h; cases h; simp [hl]
  | dump =>
    rw [step_of_dump hp] at h
    cases hl : windowLegal s.winStart s.winEnd with
    | true => rw [dumpStage_of_legal hl] at h; cases h; simp
    | false => rw [dumpStage_of_illegal hl] at h; cases h; simp
  | done =>
    rw [step_of_done hp] at h
    cases h; simp
  | faulted =>
    rw [step, hp] at h
    simp only [reportFault] at h
    split at h <;> cases h

/-! ## What raise and the host leave -/

/-- Fault entry leaves the cells, pc, DP and the inputs (R114, R182). -/
theorem raised_raise (s : State) (f : Fault) : Raised f s (s.raise f) where
  faultRecord := rfl
  status := rfl
  faultInfo := rfl
  dump := rfl
  phase := rfl
  cells _ := rfl
  pc := rfl
  dp := rfl
  inputs := ⟨rfl, fun _ => rfl, rfl, rfl, rfl, rfl⟩

theorem SameInputs.refl (s : State) : SameInputs s s := ⟨rfl, fun _ => rfl, rfl, rfl, rfl, rfl⟩

/-- Writing a cell and advancing pc changes that cell and pc only. -/
theorem onlyCellChanges_writeCell (s : State) (rd : Fin Config.nreg) (v : CellValue) :
    OnlyCellChanges rd s (s.writeCell rd v).advance where
  cells r hr := State.cell_writeCell_ne s rd r v hr
  rest := ⟨rfl, rfl, ⟨rfl, rfl, rfl, rfl⟩, ⟨rfl, fun _ => rfl, rfl, rfl, rfl, rfl⟩⟩

/-- Between runs the host's supply sets the inputs and makes the machine idle. -/
theorem hostSupply_of_ended {s : State} (inp : RunInputs) (h : s.running = false) :
    s.hostSupply inp =
      { s with
        prog := Memory.ofBytes inp.prog, progLen := inp.prog.length, winStart := inp.winStart
        winEnd := inp.winEnd, rorPolicy := inp.rorPolicy, phase := .idle } := by
  simp [State.hostSupply, h]

end Sys2Proof.Machine
end

