-- ==== Sys2Proof/Laws/PerInstr.lean ====
section
/-! SUPPORT. Laws of the instruction as syntax, one lemma per constructor. -/

namespace Sys2Proof.Laws.CodeAssigned

/-- The instruction's own code is one of the four of the opcode map, and the table's row for it lists the instruction's fields in
declared order (R61, R70). -/
def Statement (i : Instr) : Prop :=
  ∃ spec, specOfCode i.code = some spec ∧ i.fieldValues.map (fun p => p.1) = spec.fields.map (fun f => f.name)

theorem loadConst (b c : Nat) : Statement (.loadConst b c) := ⟨_, rfl, rfl⟩

theorem loadMem (b c : Nat) : Statement (.loadMem b c) := ⟨_, rfl, rfl⟩

theorem storeMem (b c : Nat) : Statement (.storeMem b c) := ⟨_, rfl, rfl⟩

theorem ror (b c d e : Nat) : Statement (.ror b c d e) := ⟨_, rfl, rfl⟩

end Sys2Proof.Laws.CodeAssigned
end

