-- ==== Sys2Proof/Laws/Run.lean ====
section
/-! SUPPORT. Runs of many steps: how they compose, and what the decode pass and the execute pass of the stepping machine have to
do with the passes of the run function (R104, R111, R122). -/

namespace Sys2Proof.Machine

/-- `k` steps of the machine. -/
abbrev steps (k : Nat) (s : State) : Host.Outcome State Fault Refusal := Host.Core.run Sys2Proof.core k s

theorem steps_zero (s : State) : steps 0 s = .next s := rfl

theorem run_succ_of_next (M : Host.Core) (k : Nat) {s t : M.State} (h : M.step s = .next t) :
    M.run (k + 1) s = M.run k t := by simp [Host.Core.run, h]

theorem run_succ_of_fault (M : Host.Core) (k : Nat) {s : M.State} {f : M.Fault} (h : M.step s = .fault f) :
    M.run (k + 1) s = .fault f := by simp [Host.Core.run, h]

theorem run_succ_of_refused (M : Host.Core) (k : Nat) {s : M.State} {r : M.Refusal}
    (h : M.step s = .refused r) : M.run (k + 1) s = .refused r := by simp [Host.Core.run, h]

theorem steps_succ (k : Nat) (s : State) :
    steps (k + 1) s =
      match step s with
      | .next t => steps k t
      | .fault f => .fault f
      | .refused r => .refused r := by
  cases h : step s with
  | next t => exact run_succ_of_next Sys2Proof.core k h
  | fault f => exact run_succ_of_fault Sys2Proof.core k h
  | refused r => exact run_succ_of_refused Sys2Proof.core k h

theorem steps_succ_of_next {s t : State} (k : Nat) (h : step s = .next t) : steps (k + 1) s = steps k t := by
  rw [steps_succ, h]

theorem steps_succ_of_fault {s : State} {f : Fault} (k : Nat) (h : step s = .fault f) :
    steps (k + 1) s = .fault f := by rw [steps_succ, h]

/-- The first `a` steps, then the other `b`. -/
theorem steps_add_of_next {s t : State} {a : Nat} (b : Nat) (h : steps a s = .next t) :
    steps (a + b) s = steps b t := by
  induction a generalizing s with
  | zero => cases h; rw [Nat.zero_add]
  | succ a ih =>
    rw [Nat.succ_add_eq_add_succ, Nat.add_succ, steps_succ]
    rw [steps_succ] at h
    cases hs : step s with
    | next u => rw [hs] at h; exact ih h
    | fault f => rw [hs] at h; cases h
    | refused r => rw [hs] at h; cases h

/-- One more step after `k`. -/
theorem steps_succ_last {s t : State} {k : Nat} (h : steps k s = .next t) : steps (k + 1) s = step t := by
  rw [steps_add_of_next 1 h, steps_succ]
  cases step t <;> rfl

/-- A faulted run stays at its fault however many more steps are asked for. -/
theorem steps_raise (s : State) (f : Fault) (k : Nat) : steps (k + 1) (s.raise f) = .fault f :=
  steps_succ_of_fault k (step_raise s f)

/-- A run that is DONE stays as it is. -/
theorem steps_of_done {s : State} (h : s.phase = .done) (k : Nat) : steps k s = .next s := by
  induction k with
  | zero => rfl
  | succ k ih => rw [steps_succ_of_next k (step_of_done h), ih]

/-- A property that the start has and every step keeps holds after any number of steps. -/
theorem steps_keep {P : State → Prop} (hk : ∀ s t, P s → step s = .next t → P t) {k : Nat} {s t : State}
    (hs : P s) (h : steps k s = .next t) : P t := by
  induction k generalizing s with
  | zero => cases h; exact hs
  | succ k ih =>
    rw [steps_succ] at h
    cases hst : step s with
    | next u => rw [hst] at h; exact ih (hk s u hs hst) h
    | fault f => rw [hst] at h; cases h
    | refused r => rw [hst] at h; cases h

/-- An instruction of the stepping machine is the body of the run function's loop (R111, R113, R122). -/
theorem exec_eq_runInstr (i : Instr) (s : State) :
    exec i s =
      match runInstr s.rorPolicy s.pc s.x i with
      | .ok x => .next { s with x := x, pc := s.pc + 1 }
      | .error f => .next (s.raise f) := by
  cases i with
  | loadConst b c =>
    show execLoadConst b c s = _
    rcases Nat.lt_or_ge b Config.nreg with hb | hb
    · rw [execLoadConst, withCell_of_lt hb, runInstr, dif_pos hb]; rfl
    · rw [execLoadConst, withCell_of_ge hb, runInstr, dif_neg (by omega)]
  | loadMem b c =>
    show execLoadMem b c s = _
    rcases Nat.lt_or_ge b Config.nreg with hb | hb
    · rcases Nat.lt_or_ge c Config.nreg with hc | hc
      · rw [execLoadMem, withCell_of_lt hb, withCell_of_lt hc, runInstr, dif_pos hb, dif_pos hc]; rfl
      · rw [execLoadMem, withCell_of_lt hb, withCell_of_ge hc, runInstr, dif_pos hb, dif_neg (by omega)]
    · rw [execLoadMem, withCell_of_ge hb, runInstr, dif_neg (by omega)]
  | storeMem b c =>
    show execStoreMem b c s = _
    rcases Nat.lt_or_ge b Config.nreg with hb | hb
    · rcases Nat.lt_or_ge c Config.nreg with hc | hc
      · rw [execStoreMem, withCell_of_lt hb, withCell_of_lt hc, runInstr, dif_pos hb, dif_pos hc]; rfl
      · rw [execStoreMem, withCell_of_lt hb, withCell_of_ge hc, runInstr, dif_pos hb, dif_neg (by omega)]
    · rw [execStoreMem, withCell_of_ge hb, runInstr, dif_neg (by omega)]
  | ror b c d e =>
    show execRor b c d e s = _
    rw [execRor, runInstr]
    cases hp : s.rorPolicy
    · rfl
    · simp [State.advance, hp]

/-- The decode pass of the stepping machine, from any point of it: one step a word (R104 to R106). `ws` are the words that are
left. -/
theorem steps_decodePass (ws : List Word) (s : State) (hp : s.phase = .decode)
    (hn : s.dp.length + ws.length = s.nWords)
    (hw : ∀ j w, ws[j]? = some w → s.prog.fetchWord (s.dp.length + j) = w) :
    match decodePass s.dp.length ws with
    | .ok dp => steps ws.length s = .next { s with dp := s.dp ++ dp }
    | .error f => ∃ t : State, ∃ j < ws.length, steps (j + 1) s = .next (t.raise f) := by
  induction ws generalizing s with
  | nil => simp [decodePass, steps_zero]
  | cons w ws ih =>
    have hlt : s.dp.length < s.nWords := by simp at hn; omega
    have hfetch : s.prog.fetchWord s.dp.length = w := hw 0 w (by simp)
    rw [decodePass]
    cases hd : decodeWord w with
    | error e =>
      refine ⟨s, 0, by simp, ?_⟩
      rw [steps_succ_of_next 0 (step_of_decode hp), decodeStage_of_error hlt (hfetch ▸ hd), hfetch]
      rfl
    | ok i =>
      have hstep : step s = .next (s.appendDecoded i) := by
        rw [step_of_decode hp, decodeStage_of_ok hlt (hfetch ▸ hd)]
      have := ih (s.appendDecoded i) hp (by simp at hn ⊢; omega) (fun j w' h => by
        have := hw (j + 1) w' (by simpa using h)
        simpa [Nat.add_assoc, Nat.add_comm 1 j] using this)
      simp only [State.appendDecoded_dp, List.length_append, List.length_singleton] at this
      cases hr : decodePass (s.dp.length + 1) ws with
      | error f =>
        rw [hr] at this
        obtain ⟨t, j, hj, h⟩ := this
        exact ⟨t, j + 1, by simpa using hj, by rw [steps_succ_of_next (j + 1) hstep, h]⟩
      | ok dp =>
        rw [hr] at this
        simp only [List.length_cons]
        rw [steps_succ_of_next _ hstep, this]
        simp [State.appendDecoded]

/-- The execute pass of the stepping machine, from any point of it: one step an instruction (R111). `rest` are the instructions
that are left. -/
theorem steps_executePass (rest : List Instr) (s : State) (hp : s.phase = .execute)
    (hr : s.dp.drop s.pc = rest) :
    match executePass s.rorPolicy s.pc s.x rest with
    | .ok x => steps rest.length s = .next { s with x := x, pc := s.pc + rest.length }
    | .error f => ∃ t : State, ∃ j < rest.length, steps (j + 1) s = .next (t.raise f) := by
  induction rest generalizing s with
  | nil => simp [executePass, steps_zero]
  | cons i rest ih =>
    have hi : s.dp[s.pc]? = some i := by
      have := congrArg (fun l => l[0]?) hr
      simpa using this
    have hstep : step s = exec i s := by rw [step_of_execute hp, executeStage_of_some hi]
    rw [executePass]
    rw [exec_eq_runInstr] at hstep
    cases hx : runInstr s.rorPolicy s.pc s.x i with
    | error f =>
      rw [hx] at hstep
      exact ⟨s, 0, by simp, by rw [steps_succ_of_next 0 hstep, steps_zero]⟩
    | ok x =>
      rw [hx] at hstep
      have hd : s.dp.drop (s.pc + 1) = rest := by
        rw [← List.drop_drop, hr]; rfl
      have := ih { s with x := x, pc := s.pc + 1 } hp hd
      simp only at this ⊢
      cases he : executePass s.rorPolicy (s.pc + 1) x rest with
      | error f =>
        rw [he] at this
        obtain ⟨t, j, hj, h⟩ := this
        exact ⟨t, j + 1, by simpa using hj, by rw [steps_succ_of_next (j + 1) hstep, h]⟩
      | ok x' =>
        rw [he] at this
        simp only [List.length_cons]
        rw [steps_succ_of_next _ hstep, this]
        simp [Nat.add_assoc, Nat.add_comm 1]

end Sys2Proof.Machine
end

