-- ==== Sys2Proof/Tests/Slice0.lean ====
section
/-! SUPPORT. The model's own tests, expected values taken from 95_test_vectors.md (the row is named) or written out by hand from the
rules; and one witness for the hypotheses of each statement. -/

namespace Sys2Proof.Tests

open Sys2Proof Sys2Proof.Machine

/-! ## Helpers -/

/-- A check of the next state. -/
def nextIs (r : Result) (p : State → Bool) : Bool :=
  match r with
  | .next t => p t
  | .fault _ => false
  | .refused _ => false

/-- The fault an outcome stops with. -/
def faultOf (r : Result) : Option Fault :=
  match r with
  | .next _ => none
  | .fault f => some f
  | .refused _ => none

/-- The phase of the next state. -/
def phaseOf (r : Result) : Option Phase :=
  match r with
  | .next t => some t.phase
  | .fault _ => none
  | .refused _ => none

/-- The cells a test looks at. -/
def cell (s : State) (n : Nat) : Option CellValue := s.x.cells[n]?

/-- A state in EXECUTE whose cell 5 holds 100, everything else as after the host placed LOAD_CONST B=5 C=7. -/
def busy : State := (State.reset.placeWord 0x0000000000700179).writeCell 5 100

/-- The same under ROR_POLICY = nop_reference. -/
def busyNop : State := { busy with rorPolicy := .nopReference }

/-- Inputs with the window [5, 6]. -/
def inputs (prog : List Byte) : RunInputs := ⟨prog, 5, 6, .fault⟩

/-- Program of S2: LOAD_CONST B=5 C=100 ; LOAD_MEM B=6 C=5. -/
def progS2 : List Byte := [0x79, 0x01, 0x40, 0x06, 0, 0, 0, 0, 0xAE, 0x01, 0x50, 0, 0, 0, 0, 0]

/-! ## WellFormed refuses each field one over its width (R79, V-E) -/

theorem test_loadConst_max : (Instr.loadConst 16383 268435455).wellFormed = true := by decide
theorem test_loadConst_b : (Instr.loadConst 16384 0).wellFormed = false := by decide
theorem test_loadConst_c : (Instr.loadConst 0 268435456).wellFormed = false := by decide
theorem test_loadMem_b : (Instr.loadMem 16384 0).wellFormed = false := by decide
theorem test_loadMem_c : (Instr.loadMem 0 16384).wellFormed = false := by decide
theorem test_storeMem_b : (Instr.storeMem 16384 0).wellFormed = false := by decide
theorem test_storeMem_c : (Instr.storeMem 0 16384).wellFormed = false := by decide
theorem test_ror_max : (Instr.ror 16383 16383 2047 16383).wellFormed = true := by decide
theorem test_ror_b : (Instr.ror 16384 0 0 0).wellFormed = false := by decide
theorem test_ror_c : (Instr.ror 0 16384 0 0).wellFormed = false := by decide
theorem test_ror_d : (Instr.ror 0 0 2048 0).wellFormed = false := by decide
theorem test_ror_e : (Instr.ror 0 0 0 16384).wellFormed = false := by decide

/-! ## Decoding of words written out from the formats (V-D) -/

/-- LOAD_CONST B=5 C=100: C = 1100100, B = 00000000000101, A = 111001 (R62, D1). -/
theorem test_decode_loadConst :
    decodeWord 0b0000000000000000_0000000000000000000001100100_00000000000101_111001 = .ok (.loadConst 5 100) := by
  decide
/-- LOAD_MEM B=6 C=5: C = 101, B = 110, A = 101110 (R63, D2). -/
theorem test_decode_loadMem :
    decodeWord 0b000000000000000000000000000000_00000000000101_00000000000110_101110 = .ok (.loadMem 6 5) := by
  decide
/-- STORE_MEM B=5 C=9: C = 1001, B = 101, A = 001011 (R63, D3). -/
theorem test_decode_storeMem :
    decodeWord 0b000000000000000000000000000000_00000000001001_00000000000101_001011 = .ok (.storeMem 5 9) := by
  decide
/-- ROR B=1 C=2 D=3 E=4 (R64, D5). -/
theorem test_decode_ror :
    decodeWord 0b00000_00000000000100_00000000011_00000000000010_00000000000001_001010 = .ok (.ror 1 2 3 4) := by
  decide
/-- The top bit of every ROR field (D29, D31, D33, D35). -/
theorem test_decode_ror_top_bits :
    decodeWord 0x000000000008000A = .ok (.ror 8192 0 0 0) ∧ decodeWord 0x000000020000000A = .ok (.ror 0 8192 0 0) ∧
    decodeWord 0x000010000000000A = .ok (.ror 0 0 1024 0) ∧ decodeWord 0x040000000000000A = .ok (.ror 0 0 0 8192) := by
  decide
/-- Bit 34 is C[14] in LOAD_CONST and undeclared in LOAD_MEM; bit 33 is C[13] in STORE_MEM (D37, D38, D39). -/
theorem test_decode_bit_34 :
    decodeWord 0x0000000400000039 = .ok (.loadConst 0 16384) ∧ decodeWord 0x000000040000002E = .ok (.loadMem 0 0) ∧
    decodeWord 0x000000020000000B = .ok (.storeMem 0 8192) := by decide
/-- Undeclared bits all ones (D8, D9, D10). -/
theorem test_decode_undeclared :
    decodeWord 0xFFFF000006400179 = .ok (.loadConst 5 100) ∧ decodeWord 0xFFFFFFFC005001AE = .ok (.loadMem 6 5) ∧
    decodeWord 0xF800800C0020004A = .ok (.ror 1 2 3 4) := by decide
/-- The neighbours of the four codes (D21 to D26), all zeros and all ones (D19, D20). -/
theorem test_decode_unassigned :
    [9, 12, 45, 47, 56, 58, 0].map (fun c => decodeWord (BitVec.ofNat 64 c)) =
      [9, 12, 45, 47, 56, 58, 0].map (fun c => .error (.unknownOpcode c)) ∧
    decodeWord 0xFFFFFFFFFFFFFFFF = .error (.unknownOpcode 63) := by decide
/-- The big-endian image of a word is another word (F9), and seven bytes are none (F3). -/
theorem test_decodeBytes :
    decodeBytes [0x79, 0x01, 0x40, 0x06, 0, 0, 0, 0, 0xAA] = .ok (.loadConst 5 100, [0xAA]) ∧
    decodeBytes [0, 0, 0, 0, 0x06, 0x40, 0x01, 0x79] = .error (.unknownOpcode 0) ∧
    decodeBytes [0x79, 0x01, 0x40, 0x06, 0, 0, 0] = .error (.truncatedWord 7) := by decide
/-- The host's words, given as eight bits or whole. -/
theorem test_decodeTableWord :
    decodeTableWord 8 0x39 = some (.loadConst 0 0) ∧ decodeTableWord 8 0x4A = some (.ror 1 0 0 0) ∧
    decodeTableWord 64 0x005001AE = some (.loadMem 6 5) ∧ decodeTableWord 8 0x00 = none := by decide

/-! ## Encoding (V-E rows E1, E12, D5, D6) -/

theorem test_encode :
    encode (.loadConst 16383 268435455) = 0x0000FFFFFFFFFFF9 ∧ encode (.loadMem 5000 1) = 0x000000000014E22E ∧
    encode (.storeMem 5 9) = 0x000000000090014B ∧ encode (.ror 16383 16383 2047 16383) = 0x07FFFFFFFFFFFFCA := by decide

/-! ## The instructions, one step on a small state -/

/-- M3: the highest cell and the largest immediate; cell 5 keeps its value. -/
theorem test_loadConst_highest :
    ∃ t, exec (.loadConst 2047 268435455) busy = .next t ∧ t.cell 2047 = 268435455 ∧ t.cell 5 = 100 ∧ t.pc = 1 :=
  ⟨(busy.writeCell 2047 (zextImm 268435455)).advance,
    by
      show execLoadConst 2047 268435455 busy = _
      rw [execLoadConst, withCell_of_lt (show 2047 < Config.nreg by decide)]
      rfl,
    State.cell_writeCell_self busy 2047 268435455, State.cell_writeCell_ne busy 2047 5 268435455 (by decide), rfl⟩
/-- M4: the lowest illegal index. -/
theorem test_loadConst_2048 :
    nextIs (exec (.loadConst 2048 1) busy) (fun t => t.faultRecord == some (.regIndexOutOfRange 0 57 .b) &&
      t.status == 4 && t.faultInfo == ⟨0, 57, 1⟩ && t.pc == 0 && t.phase == .faulted) = true := by decide
/-- S2: B is the destination. -/
theorem test_loadMem_direction :
    nextIs (exec (.loadMem 6 5) busy) (fun t => cell t 6 == some 100 && cell t 5 == some 100) = true := by decide
/-- M16: C out of range. -/
theorem test_loadMem_c_2048 :
    nextIs (exec (.loadMem 1 2048) busy) (fun t => t.faultInfo == ⟨0, 46, 2⟩ && t.status == 4) = true := by decide
/-- S3: C is the destination; a never-written source clears it (M12). -/
theorem test_storeMem_direction :
    nextIs (exec (.storeMem 5 9) busy) (fun t => cell t 9 == some 100) = true ∧
    nextIs (exec (.storeMem 8 5) busy) (fun t => cell t 5 == some 0) = true := by decide
/-- M21: both out of range, B reported. -/
theorem test_storeMem_both :
    nextIs (exec (.storeMem 16383 16383) busy) (fun t => t.faultInfo == ⟨0, 11, 1⟩) = true := by decide
/-- V-R R3: no field of ROR is range-checked. -/
theorem test_ror_fault :
    nextIs (exec (.ror 16383 16383 2047 16383) busy)
      (fun t => t.status == 3 && t.faultInfo == ⟨0, 10, 0⟩ && t.phase == .faulted) = true := by decide
/-- V-R R7: nothing but pc under nop_reference. -/
theorem test_ror_nop :
    nextIs (exec (.ror 16383 16383 2047 16383) busyNop)
      (fun t => t.pc == 1 && cell t 5 == some 100 && t.phase == .execute) = true := by decide

/-! ## Runs from reset -/

/-- S2: nine steps to DONE, dump (5, 100), (6, 100). -/
theorem test_run_S2 :
    nextIs (runFrom State.reset (inputs progS2) 9) (fun t => t.dump == [(5, 100), (6, 100)] && t.phase == .done) = true ∧
    run (inputs progS2) = .ok [(5, 100), (6, 100)] := by decide
/-- F5: the complete first word is not executed. -/
theorem test_run_truncated : run (inputs [0x79, 0x01, 0x40, 0x06, 0, 0, 0, 0, 0]) = .fault (.truncatedWord 9) ∧
    faultOf (runFrom State.reset (inputs [0x79, 0x01, 0x40, 0x06, 0, 0, 0, 0, 0]) 8) = some (.truncatedWord 9) := by
  decide
/-- P-2: DECODE before EXECUTE. -/
theorem test_run_priority :
    run (inputs [0x0A, 0, 0, 0, 0, 0, 0, 0, 0, 0, 0, 0, 0, 0, 0, 0]) = .fault (.unknownOpcode 1 0) := by decide
/-- W6 and W7: a reversed window, and an end one past the file. -/
theorem test_run_window : run ⟨progS2, 6, 5, .fault⟩ = .fault (.outOfRange 6 5) ∧
    run ⟨progS2, 2047, 2048, .fault⟩ = .fault (.outOfRange 2047 2048) := by decide

/-! ## The toolchain (V-E) -/

/-- The row of the token-scanning example, and E8, E5, E9. -/
theorem test_assembleRow :
    assembleRow ⟨"LOAD_CONST", [.assign .b 5, .assign .c 100, .other "note", .assign .d 3]⟩ = .ok 0x0000000006400179 ∧
    assembleRow ⟨"ROR", [.assign .b 1, .assign .c 2]⟩ = .error (.missingField .d) ∧
    assembleRow ⟨"STORE_MEM", [.assign .b 16384, .assign .c 16384]⟩ = .error (.overflow .b 16384) ∧
    assembleRow ⟨"ADD", [.assign .b 1, .assign .c 2]⟩ = .error (.unknownMnemonic "ADD") := by decide
/-- R86 by hand: the second of three rows triggers the failure, the third is not looked at, and no word comes out. -/
theorem test_assemble_reports_row :
    assemble [⟨"LOAD_CONST", [.assign .b 5, .assign .c 100]⟩, ⟨"LOAD_MEM", [.assign .b 6]⟩, ⟨"ADD", []⟩] =
      .error ⟨1, .missingField .c⟩ := by decide
/-- The diagnostic line of `0x0000000006400179`. -/
theorem test_diagnosticLine :
    diagnosticLine 0x0000000006400179 = "0x00 0x00 0x00 0x00 0x06 0x40 0x01 0x79" := by decide

/-! ## Witnesses: states and operands that meet the hypotheses of each statement -/

theorem witness_RoundTripOfEncodeAndDecode : (Instr.ror 1 2 3 4).wellFormed = true ∧
    decodeWord 0xF800800C0020004A = .ok (.ror 1 2 3 4) := by decide
theorem witness_DecoderIsTotalWithOneFailure : ((0x39 : Word) &&& 0x3F).toNat ∈ [57, 46, 11, 10] ∧
    ((0x3A : Word) &&& 0x3F).toNat ∉ [57, 46, 11, 10] := by decide
theorem witness_FieldsAreTheDeclaredBits : ((0x39 : Word).extractLsb' 0 6).toNat = 57 ∧
    ((0x2E : Word).extractLsb' 0 6).toNat = 46 ∧ ((0x0B : Word).extractLsb' 0 6).toNat = 11 ∧
    ((0x0A : Word).extractLsb' 0 6).toNat = 10 ∧ (5 ≤ 63 ∧ 63 ≤ 63) := by decide
theorem witness_UndeclaredBitsAreIgnored : decodeWord 0x00000000005001AE = .ok (.loadMem 6 5) := by decide
theorem witness_EncodedWordsAreClean : (Instr.storeMem 16383 16383).wellFormed = true := by decide
theorem witness_FormatsAreOrderedAndDisjoint : ⟨"ROR", 10, fmtBCDE⟩ ∈ opcodeTable ∧
    (⟨.e, 45, 58⟩ : FieldRange) ∈ fmtBCDE := by decide
theorem witness_TableEncoderAgreesWithEncode : (Instr.loadConst 5 100).wellFormed = true ∧
    specOfCode (Instr.loadConst 5 100).code = some ⟨"LOAD_CONST", 57, fmtBC28⟩ := by decide
/-- ROR B=0 C=0 with D absent, and with D = 2048 (E8, E6). -/
theorem witness_EncoderReportsFirstBadField : ⟨"ROR", 10, fmtBCDE⟩ ∈ opcodeTable ∧
    fmtBCDE = [⟨.a, 0, 5⟩, ⟨.b, 6, 19⟩, ⟨.c, 20, 33⟩] ++ ⟨.d, 34, 44⟩ :: [⟨.e, 45, 58⟩] ∧
    (valueOf [(.a, 10), (.b, 0), (.c, 0)] .a = some 10 ∧ valueOf [(.a, 10), (.b, 0), (.c, 0)] .b = some 0 ∧
      valueOf [(.a, 10), (.b, 0), (.c, 0)] .c = some 0) ∧
    valueOf [(.a, 10), (.b, 0), (.c, 0)] .d = none ∧
    valueOf [(.a, 10), (.b, 0), (.c, 0), (.d, 2048)] .d = some 2048 ∧ 2 ^ (⟨.d, 34, 44⟩ : FieldRange).width ≤ 2048 := by
  decide
theorem witness_AssembledFileReloads :
    assemble [⟨"LOAD_CONST", [.assign .b 5, .assign .c 100]⟩] = .ok [0x0000000006400179] := by decide
theorem witness_AssemblyReportsTheFirstFailingRow :
    [(⟨"LOAD_MEM", [.assign .b 6, .assign .c 5]⟩ : Row), ⟨"ADD", []⟩][1]? = some ⟨"ADD", []⟩ ∧
    assembleRow ⟨"ADD", []⟩ = .error (.unknownMnemonic "ADD") ∧
    assembleRow ⟨"LOAD_MEM", [.assign .b 6, .assign .c 5]⟩ = .ok 0x00000000005001AE := by decide
theorem witness_FetchIsLittleEndian : 8 * 1 + 8 ≤ progS2.length ∧ progS2[8 * 1]? = some 0xAE ∧
    progS2[8 * 1 + 7]? = some 0 := by decide
theorem witness_EqualBytesMeanEqualStores : Memory.wf [(3, 1), (4, 255)] = true ∧
    Memory.write (Memory.write [] 4 255) 3 1 = [(3, 1), (4, 255)] := by decide
theorem witness_StartingARunResets : State.reset.phase = .idle := by decide
theorem witness_NewRunInheritsNothing : State.reset.running = false ∧
    (busy.raise (.unimplementedOpcode 0 10)).running = false := by decide
theorem witness_HostActsOnlyBetweenRuns : busy.running = true ∧ State.reset.running = false ∧
    progS2[0]? = some 0x79 := by decide
theorem witness_LengthCheckComesFirst :
    ({ State.reset with phase := .frame, progLen := 7 } : State).phase = .frame ∧ 7 % 8 ≠ 0 ∧ 16 % 8 = 0 := by decide
/-- A state in DECODE with one word to go, one that decodes and one that does not. -/
theorem witness_DecodePassTakesTheNextWord :
    (State.reset.placeWord 0x3F).phase = .decode ∧
    (State.reset.placeWord 0x3F).dp.length < (State.reset.placeWord 0x3F).progLen / 8 ∧
    ((State.reset.placeWord 0x3F).prog.fetchWord 0 &&& 0x3F).toNat ∉ [57, 46, 11, 10] ∧
    decodeWord (({ busy with phase := .decode, dp := [] } : State).prog.fetchWord 0) = .ok (.loadConst 5 7) := by decide
theorem witness_ExecutePassStartsFromZero : ({ busy with phase := .decode } : State).phase = .decode ∧
    ({ busy with phase := .decode } : State).dp.length = ({ busy with phase := .decode } : State).progLen / 8 := by decide
/-- After two steps the run of S2 is in DECODE, after five in EXECUTE, after eight in DUMP. -/
theorem witness_WholeProgramDecodesBeforeExecution :
    phaseOf (runFrom State.reset (inputs progS2) 2) = some .decode ∧
    phaseOf (runFrom State.reset (inputs progS2) 5) = some .execute := by decide
theorem witness_StepRunsTheDecodedInstruction : busy.phase = .execute ∧ busy.pc < busy.dp.length ∧
    busy.dp = [.loadConst 5 7] ∧ decodeWord (busy.prog.fetchWord busy.pc) = .ok (.loadConst 5 7) := by decide
theorem witness_PlacedWordRunsNext : decodeTableWord 64 0x0000800C0020004A = some (.ror 1 2 3 4) := by decide
theorem witness_PcAdvancesByOne : busy.phase = .execute ∧ phaseOf (exec (.loadMem 6 5) busy) = some .execute ∧
    phaseOf (exec (.ror 1 2 3 4) busy) = some .faulted ∧ busy.advance.pc = busy.advance.dp.length := by decide
theorem witness_LoadConstWritesTheImmediate : (268435455 : Nat) < 2 ^ 28 ∧ (2047 : Fin Config.nreg).val = 2047 ∧
    2047 < 2048 ∧ ((0x39 : Word).extractLsb' 0 6).toNat = 57 := by decide
theorem witness_LoadMemCopiesCToB : 2047 < 16383 ∧ (2047 ≤ 2047 ∧ 2047 < 2048) ∧
    ((0x2E : Word).extractLsb' 0 6).toNat = 46 := by decide
theorem witness_StoreMemCopiesBToC : 2047 < 16383 ∧ (2047 ≤ 2047 ∧ 2047 < 2048) ∧
    ((0x0B : Word).extractLsb' 0 6).toNat = 11 := by decide
theorem witness_RorFaultsUnderFaultPolicy : busy.rorPolicy = .fault := by decide
theorem witness_RorOnlyAdvancesUnderNopReference : busyNop.rorPolicy = .nopReference := by decide
/-- The boundary 2047/2048 in each field of each instruction. -/
theorem witness_IndexCheckAtExecuteTime : busy.phase = .execute ∧
    phaseOf (exec (.loadConst 2047 1) busy) = some .execute ∧ phaseOf (exec (.loadConst 2048 1) busy) = some .faulted ∧
    phaseOf (exec (.loadMem 2047 2047) busy) = some .execute ∧ phaseOf (exec (.loadMem 2047 2048) busy) = some .faulted ∧
    phaseOf (exec (.storeMem 2047 2047) busy) = some .execute ∧
    phaseOf (exec (.storeMem 2048 2047) busy) = some .faulted ∧ 2048 < 2 ^ 14 := by decide
theorem witness_CellsHoldTheMostRecentWrite : State.reset.running = false ∧
    phaseOf (runFrom State.reset (inputs progS2) 6) = some .execute ∧
    phaseOf (runFrom State.reset (inputs progS2) 8) = some .dump ∧
    phaseOf (runFrom State.reset (inputs progS2) 9) = some .done := by decide
theorem witness_RaiseRecordsTheFault : (Fault.truncatedWord 7 = .truncatedWord 7) ∧
    (Fault.regIndexOutOfRange 1 46 .c = .regIndexOutOfRange 1 46 .c) := by decide
theorem witness_FaultingInstructionHasNoEffect : busy.phase = .execute ∧
    phaseOf (exec (.storeMem 5 2048) busy) = some .faulted := by decide
/-- A truncated program; one whose word 1 is the first unassigned one; one that faults at execute time. -/
theorem witness_StageOrderDecidesTheFault : State.reset.running = false ∧
    (inputs [0, 0, 0]).prog.length % 8 ≠ 0 ∧
    streamWords [0x0A, 0, 0, 0, 0, 0, 0, 0, 0, 0, 0, 0, 0, 0, 0, 0] = [0x0A, 0] ∧
    ((0 : Word) &&& 0x3F).toNat ∉ [57, 46, 11, 10] ∧ ((0x0A : Word) &&& 0x3F).toNat ∈ [57, 46, 11, 10] ∧
    faultOf (runFrom State.reset (inputs [0x0A, 0, 0, 0, 0, 0, 0, 0]) 8) = some (.unimplementedOpcode 0 10) := by decide
theorem witness_IllegalWindowRaisesOutOfRange : (busy.enter .dump).phase = .dump ∧
    (busy.enter .dump).winStart ≤ (busy.enter .dump).winEnd ∧ (busy.enter .dump).winEnd ≤ 2047 ∧
    ((busy.enter .dump).withWindow 2047 2048).winEnd > 2047 ∧
    ((busy.enter .dump).withWindow 6 5).winStart > ((busy.enter .dump).withWindow 6 5).winEnd := by decide
/-- The window [2047, 2047], and row 0 of it. -/
theorem witness_DumpShowsTheWindow : ((busy.enter .dump).withWindow 2047 2047).phase = .dump ∧
    ((busy.enter .dump).withWindow 2047 2047).winStart ≤ ((busy.enter .dump).withWindow 2047 2047).winEnd ∧
    ((busy.enter .dump).withWindow 2047 2047).winEnd ≤ 2047 ∧
    (2047 : Fin Config.nreg).val = ((busy.enter .dump).withWindow 2047 2047).winStart + 0 := by decide
theorem witness_WindowDoesNotInfluenceExecution : busy.phase ≠ .dump ∧ phaseOf (step busy) = some .execute ∧
    faultOf (step (busy.raise (.unimplementedOpcode 0 10))) = some (.unimplementedOpcode 0 10) := by decide
theorem witness_InputsAndDecodedProgramAreReadOnly : busy.phase ≠ .idle ∧ busy.phase ≠ .decode ∧
    phaseOf (step busy) = some .execute := by decide
theorem witness_MachineRefinesTheRunFunction : State.reset.running = false ∧
    run (inputs progS2) = .ok [(5, 100), (6, 100)] ∧ run (inputs [0]) = .fault (.truncatedWord 1) := by decide
theorem witness_EveryRunTerminates : (busy.raise (.unimplementedOpcode 0 10)).running = false := by decide
theorem witness_RunEndsOkExactlyWhen : State.reset.running = false ∧
    phaseOf (runFrom State.reset (inputs progS2) (2 * (inputs progS2).nWords + 5)) = some .done := by decide
theorem witness_EmptyProgramDumpsZeros : State.reset.running = false ∧ (inputs []).prog = [] ∧
    (inputs []).winStart ≤ (inputs []).winEnd ∧ (inputs []).winEnd ≤ 2047 := by decide
theorem witness_CellsStayBelowTwoPow28 : State.reset.running = false ∧
    phaseOf (runFrom State.reset (inputs progS2) 6) = some .execute := by decide

/-- The placed program of `busy` before its cell is written: a state that executes and has the invariant. -/
def placed : State := State.reset.placeWord 0x0000000000700179

theorem placed_cell (r : Fin Config.nreg) : placed.cell r = 0 := by
  show State.reset.cell r = 0
  simp [State.cell, State.reset]

theorem placed_buffer (j : Nat) (i : Instr) (h : placed.dp[j]? = some i) :
    decodeWord (placed.prog.fetchWord j) = .ok i := by
  rw [show placed.dp = [.loadConst 5 7] by decide] at h
  cases j with
  | zero => cases h; decide
  | succ j => simp at h

theorem placed_inside : ∀ c ∈ placed.prog, c.1 < placed.progLen := by decide

/-- A state with the invariant whose step answers a next state. -/
theorem witness_EveryStepKeepsTheInvariant : Machine.Inv placed ∧ phaseOf (step placed) = some .execute where
  left :=
    { progWf := by decide, progInside := placed_inside, cellsBounded := fun r => by rw [placed_cell]; decide
      statusAgrees := by decide, infoAgrees := by decide, pcBounded := by decide, bufferShort := by decide
      bufferAgrees := fun _ => placed_buffer, framed := by decide, bufferFull := by decide
      fresh := fun _ => ⟨placed_cell, by decide⟩, freshBuffer := by decide, atEnd := by decide
      recorded := by decide, dumpEmpty := by decide, dumped := fun h => absurd h (by decide) }
  right := by decide

/-- A faulted state with the invariant; the host may supply a new run to it. -/
theorem witness_StepStopsOnlyWithTheRecordedFault :
    Machine.Inv (placed.raise (.unimplementedOpcode 0 10)) ∧
    (placed.raise (.unimplementedOpcode 0 10)).phase = .faulted where
  left :=
    { progWf := by decide, progInside := placed_inside
      cellsBounded := fun r => by rw [State.raise_cell, placed_cell]; decide
      statusAgrees := by decide, infoAgrees := by decide, pcBounded := by decide, bufferShort := by decide
      bufferAgrees := fun _ => placed_buffer, framed := by decide, bufferFull := by decide
      fresh := fun h => absurd h (by decide), freshBuffer := by decide, atEnd := by decide
      recorded := by decide, dumpEmpty := by decide, dumped := fun h => absurd h (by decide) }
  right := rfl

theorem witness_HostSupplyKeepsTheInvariant : ∃ s, Machine.Inv s ∧ s.running = false :=
  ⟨_, witness_StepStopsOnlyWithTheRecordedFault.1, rfl⟩

end Sys2Proof.Tests
end

section
/-! PROOFS. The host between runs (R13, R32, R33): what its supply leaves, and that it keeps the invariant. -/

namespace Sys2Proof.Machine

/-- A byte of the stream is read back at its own offset (R40). -/
theorem Memory.read_ofBytes_of_getElem? {l : List Byte} {a : Nat} {b : Byte} (h : l[a]? = some b) :
    (Memory.ofBytes l).read a = b := by
  rw [Memory.read_ofBytes, h, Option.getD_some]

/-- While a run is under way the host can do nothing to the machine (R13, D15). -/
theorem hostSupply_of_running {s : State} (inp : RunInputs) (h : s.running = true) : s.hostSupply inp = s :=
  if_pos h

/-- Of an idle machine the invariant asks only for the program store, the bound on the cells and reports that agree; the
other clauses are about a run that has started. -/
theorem inv_of_idle {s : State} (idle : s.phase = .idle) (progWf : s.prog.wf = true)
    (progInside : ∀ c ∈ s.prog, c.1 < s.progLen) (cellsBounded : ∀ r, (s.cell r).toNat < 2 ^ 28)
    (statusAgrees : s.status = recordStatus s.faultRecord)
    (infoAgrees : s.faultInfo = recordInfo s.faultRecord) : Inv s :=
  { progWf, progInside, cellsBounded, statusAgrees, infoAgrees
    pcBounded := absurd idle, bufferShort := absurd idle, bufferAgrees := absurd idle
    recorded := absurd idle, dumpEmpty := absurd idle
    framed := by simp [idle], bufferFull := by simp [idle], fresh := by simp [idle]
    freshBuffer := by simp [idle], atEnd := by simp [idle], dumped := by simp [idle] }

/-- Settles O16: a running machine is left alone; otherwise the supply is a record update, and the bytes are read back from
the loaded stream. -/
theorem hostActsOnlyBetweenRuns : Obligations.HostActsOnlyBetweenRuns := by
  intro s inp
  refine ⟨hostSupply_of_running inp, fun ended => ?_⟩
  rw [hostSupply_of_ended inp ended]
  have bytes (a : Nat) (b : Byte) : inp.prog[a]? = some b → (Memory.ofBytes inp.prog).read a = b :=
    Memory.read_ofBytes_of_getElem?
  exact ⟨rfl, bytes, rfl, rfl, rfl, rfl, fun _ => rfl, rfl, ⟨rfl, rfl, rfl, rfl⟩⟩

/-- Settles O42: a running machine is left alone; an ended one becomes idle with a loaded stream for its program store, and
its cells and reports are as they were. -/
theorem hostSupplyKeepsTheInvariant : Obligations.HostSupplyKeepsTheInvariant := by
  intro s inp inv
  cases h : s.running with
  | true => rwa [hostSupply_of_running inp h]
  | false =>
    rw [hostSupply_of_ended inp h]
    exact inv_of_idle rfl (Memory.wf_ofBytes inp.prog) (fun _ => Memory.ofBytes_inside) inv.cellsBounded
      inv.statusAgrees inv.infoAgrees

end Sys2Proof.Machine
end

section
/-! PROOFS. What holds in every state of a run (R24, R25, R34 to R36, R101, R104, R108, R111): one lemma per operation that
says it keeps the invariant, and from these the invariant of every step and of every run. -/

namespace Sys2Proof.Machine

/-- Everything an instruction's next state can be: a raised fault, one cell written and pc advanced, or only pc advanced. -/
theorem exec_next_cases {i : Instr} {s t : State} (h : exec i s = .next t) :
    (∃ f, t = s.raise f) ∨
    (∃ rd v, t = (s.writeCell rd v).advance ∧
      ((∃ b c, i = .loadConst b c ∧ v = zextImm c) ∨ ∃ rs, v = s.cell rs)) ∨
    t = s.advance := by
  rcases exec_cases i s with ⟨f, hf, -⟩ | ⟨rd, v, hw, hv⟩ | ha
  · cases hf.symm.trans h
    exact .inl ⟨f, rfl⟩
  · cases hw.symm.trans h
    exact .inr (.inl ⟨rd, v, rfl, hv⟩)
  · cases ha.symm.trans h
    exact .inr (.inr rfl)

/-- A decoded LOAD_CONST has an immediate below 2^28, as wide as its field (R62). -/
theorem loadConst_immediate_lt {w : Word} {b c : Nat} (h : decodeWord w = .ok (.loadConst b c)) : c < 2 ^ 28 := by
  have fits := wellFormed_of_decodeWord h
  simp only [Instr.wellFormed, Bool.and_eq_true, decide_eq_true_eq] at fits
  exact fits.2

@[simp] theorem State.reset_cell (r : Fin Config.nreg) : State.reset.cell r = 0 := RegFile.get_zero r

variable {s : State}

/-- A run that has neither faulted nor yet to start has no fault recorded (R30(c)). -/
theorem Inv.faultRecord_eq_none (inv : Inv s) (started : s.phase ≠ .idle) (unfaulted : s.phase ≠ .faulted) :
    s.faultRecord = none := by
  have recorded := inv.recorded started
  simpa [unfaulted] using recorded

/-- The start of a run asks only for a sound program store: all else takes its reset value (R210). -/
theorem inv_startRun (progWf : s.prog.wf = true) (progInside : ∀ c ∈ s.prog, c.1 < s.progLen) :
    Inv s.startRun where
  progWf := progWf
  progInside := progInside
  cellsBounded := by simp
  statusAgrees := rfl
  infoAgrees := rfl
  pcBounded := by simp
  bufferShort := by simp
  bufferAgrees := by simp
  framed := by simp
  bufferFull := by simp
  fresh := by simp
  freshBuffer := by simp
  atEnd := by simp
  recorded := by simp
  dumpEmpty := by simp
  dumped := by simp

/-- Fault entry keeps the invariant in every run that has started (R182). -/
theorem inv_raise (inv : Inv s) (started : s.phase ≠ .idle) (f : Fault) : Inv (s.raise f) :=
  { inv with
    statusAgrees := rfl
    infoAgrees := rfl
    pcBounded := fun _ => inv.pcBounded started
    bufferShort := fun _ => inv.bufferShort started
    bufferAgrees := fun _ => inv.bufferAgrees started
    framed := by simp
    bufferFull := by simp
    fresh := by simp
    freshBuffer := by simp
    atEnd := by simp
    recorded := by simp
    dumpEmpty := by simp
    dumped := by simp }

/-- Passing the length check keeps the invariant (R101). -/
theorem inv_enter_decode (inv : Inv s) (frame : s.phase = .frame) (multiple : s.progLen % 8 = 0) :
    Inv (s.enter .decode) :=
  have started : s.phase ≠ .idle := by simp [frame]
  { inv with
    pcBounded := fun _ => inv.pcBounded started
    bufferShort := fun _ => inv.bufferShort started
    bufferAgrees := fun _ => inv.bufferAgrees started
    framed := fun _ => multiple
    bufferFull := by simp
    fresh := fun _ => inv.fresh (.inl frame)
    freshBuffer := by simp
    atEnd := by simp
    recorded := by simp [inv.faultRecord_eq_none started (by simp [frame])]
    dumpEmpty := fun _ _ => inv.dumpEmpty started (by simp [frame])
    dumped := by simp }

/-- The decoded program with the next word's instruction appended still agrees with the program store (R104). -/
theorem bufferAgrees_appendDecoded {i : Instr}
    (agrees : ∀ j i', s.dp[j]? = some i' → decodeWord (s.prog.fetchWord j) = .ok i')
    (decoded : decodeWord (s.prog.fetchWord s.dp.length) = .ok i) (j : Nat) (i' : Instr)
    (h : (s.dp ++ [i])[j]? = some i') : decodeWord (s.prog.fetchWord j) = .ok i' := by
  rcases Nat.lt_or_ge j s.dp.length with old | new
  · exact agrees j i' (List.getElem?_append_left old ▸ h)
  · rw [List.getElem?_append_right new, List.getElem?_singleton] at h
    split_ifs at h with offset
    obtain rfl := Option.some.inj h
    rwa [show j = s.dp.length by omega]

/-- Decoding the next word keeps the invariant (R104). -/
theorem inv_appendDecoded {i : Instr} (inv : Inv s) (decode : s.phase = .decode) (left : s.dp.length < s.nWords)
    (decoded : decodeWord (s.prog.fetchWord s.dp.length) = .ok i) : Inv (s.appendDecoded i) :=
  { inv with
    bufferShort := fun _ => by simpa using left
    bufferAgrees := fun started => bufferAgrees_appendDecoded (inv.bufferAgrees started) decoded
    bufferFull := by simp [decode]
    freshBuffer := by simp [decode] }

/-- The start of the execute pass, after the last word, keeps the invariant (R108, R110). -/
theorem inv_beginExecute (inv : Inv s) (decode : s.phase = .decode) (all : s.nWords ≤ s.dp.length) :
    Inv s.beginExecute :=
  have started : s.phase ≠ .idle := by simp [decode]
  { inv with
    cellsBounded := by simp
    pcBounded := by simp
    bufferShort := fun _ => inv.bufferShort started
    bufferAgrees := fun _ => inv.bufferAgrees started
    framed := fun _ => inv.framed (.inl decode)
    bufferFull := fun _ => le_antisymm (inv.bufferShort started) all
    fresh := by simp
    freshBuffer := by simp
    atEnd := by simp
    recorded := by simp [inv.faultRecord_eq_none started (by simp [decode])]
    dumpEmpty := fun _ _ => inv.dumpEmpty started (by simp [decode])
    dumped := by simp }

/-- Writing a value below 2^28 in EXECUTE keeps the invariant (R24). -/
theorem inv_writeCell (inv : Inv s) (execute : s.phase = .execute) (rd : Fin Config.nreg) {v : CellValue}
    (bounded : v.toNat < 2 ^ 28) : Inv (s.writeCell rd v) :=
  { inv with
    cellsBounded := fun r => by
      rw [State.cell_writeCell]
      split_ifs
      · exact bounded
      · exact inv.cellsBounded r
    fresh := by simp [execute]
    dumped := by simp [execute] }

/-- Advancing pc past an instruction of the decoded program keeps the invariant (R25, R26). -/
theorem inv_advance (inv : Inv s) (execute : s.phase = .execute) (inside : s.pc < s.dp.length) : Inv s.advance :=
  { inv with
    pcBounded := fun started => inside.trans_le (inv.bufferShort started)
    fresh := by simp [execute]
    atEnd := by simp [execute] }

/-- The end of the execute pass keeps the invariant: pc is N there (R111). -/
theorem inv_enter_dump (inv : Inv s) (execute : s.phase = .execute) (past : s.dp.length ≤ s.pc) :
    Inv (s.enter .dump) :=
  have started : s.phase ≠ .idle := by simp [execute]
  have full : s.dp.length = s.nWords := inv.bufferFull (.inl execute)
  { inv with
    pcBounded := fun _ => inv.pcBounded started
    bufferShort := fun _ => inv.bufferShort started
    bufferAgrees := fun _ => inv.bufferAgrees started
    framed := fun _ => inv.framed (.inr (.inl execute))
    bufferFull := fun _ => full
    fresh := by simp
    freshBuffer := by simp
    atEnd := fun _ => le_antisymm (inv.pcBounded started) (full ▸ past)
    recorded := by simp [inv.faultRecord_eq_none started (by simp [execute])]
    dumpEmpty := fun _ _ => inv.dumpEmpty started (by simp [execute])
    dumped := by simp }

/-- Ending the run with the rows of a legal window keeps the invariant (R115, R119, R121). -/
theorem inv_finish (inv : Inv s) (dump : s.phase = .dump) (legal : windowLegal s.winStart s.winEnd = true) :
    Inv (s.finish (dumpRows s.x s.winStart s.winEnd)) :=
  have started : s.phase ≠ .idle := by simp [dump]
  have noFault : s.faultRecord = none := inv.faultRecord_eq_none started (by simp [dump])
  { inv with
    statusAgrees := by simp [noFault, recordStatus]
    pcBounded := fun _ => inv.pcBounded started
    bufferShort := fun _ => inv.bufferShort started
    bufferAgrees := fun _ => inv.bufferAgrees started
    framed := fun _ => inv.framed (.inr (.inr (.inl dump)))
    bufferFull := fun _ => inv.bufferFull (.inr (.inl dump))
    fresh := by simp
    freshBuffer := by simp
    atEnd := fun _ => inv.atEnd (.inl dump)
    recorded := by simp [noFault]
    dumpEmpty := by simp
    dumped := fun _ => ⟨legal, rfl⟩ }

/-- An instruction of the decoded program keeps the invariant: what it writes is an immediate of 28 bits or the value of
another cell. -/
theorem inv_exec {i : Instr} {t : State} (inv : Inv s) (execute : s.phase = .execute)
    (current : s.dp[s.pc]? = some i) (h : exec i s = .next t) : Inv t := by
  have started : s.phase ≠ .idle := by simp [execute]
  have inside : s.pc < s.dp.length := (List.getElem?_eq_some_iff.1 current).1
  rcases exec_next_cases h with ⟨f, rfl⟩ | ⟨rd, v, rfl, hv⟩ | rfl
  · exact inv_raise inv started f
  · have bounded : v.toNat < 2 ^ 28 := by
      rcases hv with ⟨b, c, rfl, rfl⟩ | ⟨rs, rfl⟩
      · have hc := loadConst_immediate_lt (inv.bufferAgrees started _ _ current)
        rwa [zextImm_toNat hc]
      · exact inv.cellsBounded rs
    exact inv_advance (inv_writeCell inv execute rd bounded) execute inside
  · exact inv_advance inv execute inside

/-- Settles O41: each operation that a step can take keeps the invariant. -/
theorem everyStepKeepsTheInvariant : Obligations.EveryStepKeepsTheInvariant := by
  intro s t inv h
  rcases step_cases h with ⟨-, rfl⟩ | ⟨frame, multiple, rfl⟩ | ⟨frame, -, rfl⟩ | ⟨i, decode, left, decoded, rfl⟩ |
    ⟨decode, -, -, rfl⟩ | ⟨decode, all, rfl⟩ | ⟨i, execute, current, hexec⟩ | ⟨execute, past, rfl⟩ |
    ⟨dump, legal, rfl⟩ | ⟨dump, -, rfl⟩ | ⟨-, rfl⟩
  · exact inv_startRun inv.progWf inv.progInside
  · exact inv_enter_decode inv frame multiple
  · exact inv_raise inv (by simp [frame]) _
  · exact inv_appendDecoded inv decode left decoded
  · exact inv_raise inv (by simp [decode]) _
  · exact inv_beginExecute inv decode all
  · exact inv_exec inv execute current hexec
  · exact inv_enter_dump inv execute past
  · exact inv_finish inv dump legal
  · exact inv_raise inv (by simp [dump]) _
  · exact inv

/-- Settles O40: at reset the machine is idle, with an empty program store, every cell 0 and no fault. -/
theorem invariantHoldsAtReset : Obligations.InvariantHoldsAtReset :=
  inv_of_idle rfl Memory.wf_nil (by simp [State.reset]) (by simp) rfl rfl

/-- Every state of every run has the invariant, whatever the machine held before: the first step resets all that the host
does not supply (R210), and each later step keeps it. -/
theorem inv_runFrom {inp : RunInputs} {k : Nat} {t : State} (ended : s.running = false)
    (h : runFrom s inp (k + 1) = .next t) : Inv t := by
  have supplied := hostSupply_of_ended inp ended
  have started : step (s.hostSupply inp) = .next (s.hostSupply inp).startRun := step_of_idle (by rw [supplied])
  have inv : Inv (s.hostSupply inp).startRun := by
    rw [supplied]
    exact inv_startRun (Memory.wf_ofBytes inp.prog) (fun _ => Memory.ofBytes_inside)
  exact steps_keep everyStepKeepsTheInvariant inv ((steps_succ_of_next k started).symm.trans h)

/-- Settles O44: the bound on the cells is part of the invariant, which every state of a run has. -/
theorem cellsStayBelowTwoPow28 : Obligations.CellsStayBelowTwoPow28 :=
  fun _ _ _ _ ended h => (inv_runFrom ended h).cellsBounded

end Sys2Proof.Machine
end

section
/-! PROOFS. What a step leaves unchanged and how pc moves (R26, R30, R32, R33, R37, R40, R53). -/

namespace Sys2Proof.Machine

/-- Inputs that are equal field by field are the same byte for byte. -/
theorem sameInputs_of_eq {s t : State} (prog : t.prog = s.prog) (progLen : t.progLen = s.progLen)
    (winStart : t.winStart = s.winStart) (winEnd : t.winEnd = s.winEnd) (rorPolicy : t.rorPolicy = s.rorPolicy) :
    SameInputs s t :=
  ⟨prog, fun _ => by rw [prog], progLen, winStart, winEnd, rorPolicy⟩

/-- No instruction changes an input or the decoded program (R32, R53). -/
theorem exec_keeps_inputs_dp {i : Instr} {s t : State} (h : exec i s = .next t) : SameInputs s t ∧ t.dp = s.dp := by
  rcases exec_next_cases h with ⟨f, rfl⟩ | ⟨rd, v, rfl, -⟩ | rfl
  · exact ⟨(raised_raise s f).inputs, rfl⟩
  · exact ⟨(onlyCellChanges_writeCell s rd v).rest.inputs, rfl⟩
  · exact ⟨sameInputs_of_eq rfl rfl rfl rfl rfl, rfl⟩

/-- No step changes an input (R32, R33, R40). -/
theorem step_sameInputs {s t : State} (h : step s = .next t) : SameInputs s t := by
  rcases step_cases h with ⟨-, rfl⟩ | ⟨-, -, rfl⟩ | ⟨-, -, rfl⟩ | ⟨i, -, -, -, rfl⟩ | ⟨-, -, -, rfl⟩ | ⟨-, -, rfl⟩ |
    ⟨i, -, -, hexec⟩ | ⟨-, -, rfl⟩ | ⟨-, -, rfl⟩ | ⟨-, -, rfl⟩ | ⟨-, rfl⟩
  on_goal 7 => exact (exec_keeps_inputs_dp hexec).1
  all_goals exact sameInputs_of_eq rfl rfl rfl rfl rfl

/-- In a run that has started a step keeps the decoded program, or, in DECODE, appends one instruction to it (R104). -/
theorem step_dp {s t : State} (h : step s = .next t) (started : s.phase ≠ .idle) :
    t.dp = s.dp ∨ s.phase = .decode ∧ ∃ i, t.dp = s.dp ++ [i] := by
  rcases step_cases h with ⟨idle, -⟩ | ⟨-, -, rfl⟩ | ⟨-, -, rfl⟩ | ⟨i, decode, -, -, rfl⟩ | ⟨-, -, -, rfl⟩ |
    ⟨-, -, rfl⟩ | ⟨i, -, -, hexec⟩ | ⟨-, -, rfl⟩ | ⟨-, -, rfl⟩ | ⟨-, -, rfl⟩ | ⟨-, rfl⟩
  on_goal 7 => exact .inl (exec_keeps_inputs_dp hexec).2
  on_goal 4 => exact .inr ⟨decode, i, rfl⟩
  on_goal 1 => exact absurd idle started
  all_goals exact .inl rfl

/-- Settles O39: a step keeps the inputs, and the decoded program but for the instruction that DECODE appends. -/
theorem inputsAndDecodedProgramAreReadOnly : Obligations.InputsAndDecodedProgramAreReadOnly := by
  intro s t h
  refine ⟨step_sameInputs h, fun started => ?_⟩
  rcases step_dp h started with kept | ⟨decode, i, appended⟩
  · exact ⟨[], by simpa using kept, fun _ => rfl⟩
  · exact ⟨[i], appended, absurd decode⟩

/-- Settles O23: a raised fault leaves pc and the two other ends of an instruction advance it; past the last instruction the
step only enters DUMP. -/
theorem pcAdvancesByOne : Obligations.PcAdvancesByOne := by
  refine ⟨fun i s t execute h => ?_, fun s execute atEnd => ?_⟩
  · rcases exec_next_cases h with ⟨f, rfl⟩ | ⟨rd, v, rfl, -⟩ | rfl
    · exact .inr ⟨rfl, rfl⟩
    · exact .inl ⟨execute, rfl⟩
    · exact .inl ⟨execute, rfl⟩
  · exact (step_of_execute execute).trans (executeStage_of_end atEnd.ge)

/-- Settles O13: the reset state is a literal, and its first step starts the run. -/
theorem resetValues : Obligations.ResetValues :=
  ⟨State.reset_cell, rfl, rfl, rfl, rfl, rfl, rfl, rfl, _, step_of_idle rfl, rfl⟩

end Sys2Proof.Machine
end

section
/-! PROOFS. The program store (R40, R43): a canonical store is determined by its bytes, and a word is fetched
little-endian. -/

namespace Sys2Proof.Machine

/-- The entries of a canonical store are exactly its bytes other than 0, each at its address. -/
theorem Memory.mem_iff_read {m : Memory} (a : Nat) (v : Byte) (canonical : m.wf = true) :
    (a, v) ∈ m ↔ m.read a = v ∧ v ≠ unlistedByte := by
  induction m with
  | nil =>
    simp only [List.not_mem_nil, Memory.read, false_iff]
    exact fun ⟨unlisted, listed⟩ => listed unlisted.symm
  | cons p m ih =>
    obtain ⟨k, u⟩ := p
    obtain ⟨above, listed, canonical'⟩ := Memory.wf_cons.1 canonical
    rw [List.mem_cons, Memory.read, Prod.mk.injEq]
    by_cases head : k = a
    · subst head
      have notInTail : (k, v) ∉ m := fun h => lt_irrefl k (above _ h)
      rw [if_pos rfl]
      constructor
      · rintro (⟨-, rfl⟩ | h)
        · exact ⟨rfl, listed⟩
        · exact absurd h notInTail
      · exact fun h => .inl ⟨rfl, h.1.symm⟩
    · rw [if_neg head, ← ih canonical']
      simp [Ne.symm head]

/-- Settles O12: both stores have the same entries, and entries in strictly rising order of address are listed in one way
only. -/
theorem equalBytesMeanEqualStores : Obligations.EqualBytesMeanEqualStores := by
  intro m m' canonical canonical' sameBytes
  have rising := (Memory.wf_iff.1 canonical).1
  have rising' := (Memory.wf_iff.1 canonical').1
  have sameEntries (q : Host.Cell) : q ∈ m ↔ q ∈ m' := by
    rw [Memory.mem_iff_read q.1 q.2 canonical, Memory.mem_iff_read q.1 q.2 canonical', sameBytes]
  have : Std.Irrefl fun p q : Host.Cell => p.1 < q.1 := ⟨fun p => lt_irrefl p.1⟩
  have : Std.Antisymm fun p q : Host.Cell => p.1 < q.1 := ⟨fun p q h h' => absurd h' h.asymm⟩
  exact rising.eq_of_mem_iff rising' sameEntries

/-- The low byte of a little-endian word is the first byte of the list (R43). -/
theorem extractLsb'_littleEndian_cons (b : Byte) (bs : List Byte) :
    (BitVec.ofNat 64 (littleEndian (b :: bs))).extractLsb' 0 8 = b := by
  apply BitVec.eq_of_toNat_eq
  have := b.isLt
  simp only [BitVec.extractLsb'_toNat, BitVec.toNat_ofNat, Nat.shiftRight_zero, littleEndian]
  omega

/-- Settles O11: the eight bytes are those that the fetch reads; the little-endian value of eight bytes fits the word, and
its first byte is the word's low byte. -/
theorem fetchIsLittleEndian : Obligations.FetchIsLittleEndian := by
  refine ⟨fun l i _ b0 b1 b2 b3 b4 b5 b6 b7 h0 h1 h2 h3 h4 h5 h6 h7 => ?_, by decide⟩
  have fetched : (Memory.ofBytes l).fetchWord i =
      BitVec.ofNat 64 (littleEndian [b0, b1, b2, b3, b4, b5, b6, b7]) := by
    simp [Memory.fetchWord_ofBytes, List.range, List.range.loop, h0, h1, h2, h3, h4, h5, h6, h7]
  rw [fetched]
  refine ⟨?_, extractLsb'_littleEndian_cons b0 _⟩
  have fits := littleEndian_lt [b0, b1, b2, b3, b4, b5, b6, b7]
  simp only [littleEndian, List.length_cons, List.length_nil] at fits ⊢
  rw [BitVec.toNat_ofNat]
  omega

end Sys2Proof.Machine
end

section
/-! PROOFS. Every cell holds the most recent write to it in program order (R23, R51): which cell each instruction writes, and
that every state of a run shows the writes of the instructions in front of pc. -/

namespace Sys2Proof.Machine

variable {s t : State}

/-! ## Which cell each instruction writes (R141 to R144) -/

/-- What goes on with a cell raised a fault instead, or went on with the cell its index names (R144). -/
theorem withCell_next_cases {code n : Nat} {f : IndexField} {k : Fin Config.nreg → Result}
    (h : withCell s code f n k = .next t) :
    (∃ fault, t = s.raise fault) ∨ ∃ r : Fin Config.nreg, r.val = n ∧ k r = .next t := by
  rcases Nat.lt_or_ge n Config.nreg with inside | outside
  · rw [withCell_of_lt inside] at h
    exact .inr ⟨⟨n, inside⟩, rfl, h⟩
  · rw [withCell_of_ge outside] at h
    cases h
    exact .inl ⟨_, rfl⟩

theorem exec_loadConst_next_cases {b c : Nat} (h : exec (.loadConst b c) s = .next t) :
    (∃ f, t = s.raise f) ∨
      ∃ rd : Fin Config.nreg, rd.val = b ∧ t = (s.writeCell rd (zextImm c)).advance := by
  rcases withCell_next_cases h with raised | ⟨rd, hb, h⟩
  · exact .inl raised
  · cases h
    exact .inr ⟨rd, hb, rfl⟩

theorem exec_loadMem_next_cases {b c : Nat} (h : exec (.loadMem b c) s = .next t) :
    (∃ f, t = s.raise f) ∨
      ∃ rd rs : Fin Config.nreg, rd.val = b ∧ rs.val = c ∧ t = (s.writeCell rd (s.cell rs)).advance := by
  rcases withCell_next_cases h with raised | ⟨rd, hb, h⟩
  · exact .inl raised
  rcases withCell_next_cases h with raised | ⟨rs, hc, h⟩
  · exact .inl raised
  · cases h
    exact .inr ⟨rd, rs, hb, hc, rfl⟩

theorem exec_storeMem_next_cases {b c : Nat} (h : exec (.storeMem b c) s = .next t) :
    (∃ f, t = s.raise f) ∨
      ∃ rs rd : Fin Config.nreg, rs.val = b ∧ rd.val = c ∧ t = (s.writeCell rd (s.cell rs)).advance := by
  rcases withCell_next_cases h with raised | ⟨rs, hb, h⟩
  · exact .inl raised
  rcases withCell_next_cases h with raised | ⟨rd, hc, h⟩
  · exact .inl raised
  · cases h
    exact .inr ⟨rs, rd, hb, hc, rfl⟩

/-- ROR writes no cell (R161, R162). -/
theorem exec_ror_next_cases {b c d e : Nat} (h : exec (.ror b c d e) s = .next t) :
    (∃ f, t = s.raise f) ∨ t = s.advance := by
  change execRor b c d e s = .next t at h
  rw [execRor] at h
  split at h <;> cases h
  · exact .inl ⟨_, rfl⟩
  · exact .inr rfl

/-! ## The most recent writes -/

/-- Every cell holds the most recent write to it among the instructions in `done`, the last one first. -/
def ShowsLastWrites (done : List Instr) (s : State) : Prop := ∀ r, (s.cell r).toNat = lastWritten done r.val

/-- The instructions in front of pc, the last one first: those a run has executed. -/
def State.executed (s : State) : List Instr := (s.dp.take s.pc).reverse

theorem executed_of_pc_eq_zero (h : s.pc = 0) : s.executed = [] := by simp [State.executed, h]

/-- Advancing pc puts the instruction it stood on in front of those executed before. -/
theorem executed_of_pc_succ {i : Instr} (current : s.dp[s.pc]? = some i) (dp : t.dp = s.dp) (pc : t.pc = s.pc + 1) :
    t.executed = i :: s.executed := by
  rw [State.executed, dp, pc, List.take_add_one, current]
  simp [State.executed]

/-- Where nothing has been executed every cell has to be 0 (R23). -/
theorem showsLastWrites_of_fresh (pc : s.pc = 0) (zero : ∀ r, s.cell r = 0) : ShowsLastWrites s.executed s := by
  intro r
  rw [executed_of_pc_eq_zero pc, zero]
  rfl

/-- A cell after one is written: the value written there, the most recent write before everywhere else. -/
theorem ShowsLastWrites.toNat_writeCell {done : List Instr} (shows : ShowsLastWrites done s)
    (rd r : Fin Config.nreg) (v : CellValue) :
    ((s.writeCell rd v).cell r).toNat = if r.val = rd.val then v.toNat else lastWritten done r.val := by
  rw [State.cell_writeCell]
  simp only [Fin.ext_iff]
  split_ifs
  · rfl
  · exact shows r

/-- A decoded instruction raises a fault, or advances pc with its own write the most recent one. -/
theorem exec_showsLastWrites {i : Instr} {w : Word} {done : List Instr} (h : exec i s = .next t)
    (decoded : decodeWord w = .ok i) (shows : ShowsLastWrites done s) :
    (∃ f, t = s.raise f) ∨ t.pc = s.pc + 1 ∧ ShowsLastWrites (i :: done) t := by
  cases i with
  | loadConst b c =>
    rcases exec_loadConst_next_cases h with raised | ⟨rd, rfl, rfl⟩
    · exact .inl raised
    · refine .inr ⟨rfl, fun r => ?_⟩
      rw [State.advance_cell, shows.toNat_writeCell, zextImm_toNat (loadConst_immediate_lt decoded), lastWritten]
  | loadMem b c =>
    rcases exec_loadMem_next_cases h with raised | ⟨rd, rs, rfl, rfl, rfl⟩
    · exact .inl raised
    · refine .inr ⟨rfl, fun r => ?_⟩
      rw [State.advance_cell, shows.toNat_writeCell, shows rs, lastWritten]
  | storeMem b c =>
    rcases exec_storeMem_next_cases h with raised | ⟨rs, rd, rfl, rfl, rfl⟩
    · exact .inl raised
    · refine .inr ⟨rfl, fun r => ?_⟩
      rw [State.advance_cell, shows.toNat_writeCell, shows rs, lastWritten]
  | ror b c d e =>
    rcases exec_ror_next_cases h with raised | rfl
    · exact .inl raised
    · exact .inr ⟨rfl, shows⟩

/-- Every step keeps the cells at the most recent writes of what is executed: the start of a run and of the execute pass
clear cells and pc, decoding happens with both still clear, an instruction adds its own write, and no other step touches
cells, pc or the decoded program. -/
theorem step_showsLastWrites (inv : Inv s) (shows : ShowsLastWrites s.executed s) (h : step s = .next t) :
    ShowsLastWrites t.executed t := by
  rcases step_cases h with ⟨-, rfl⟩ | ⟨-, -, rfl⟩ | ⟨-, -, rfl⟩ | ⟨i, decode, -, -, rfl⟩ | ⟨-, -, -, rfl⟩ |
    ⟨-, -, rfl⟩ | ⟨i, execute, current, hexec⟩ | ⟨-, -, rfl⟩ | ⟨-, -, rfl⟩ | ⟨-, -, rfl⟩ | ⟨-, rfl⟩
  · exact showsLastWrites_of_fresh rfl s.startRun_cell
  · exact shows
  · exact shows
  · obtain ⟨zero, pc⟩ := inv.fresh (.inr decode)
    exact showsLastWrites_of_fresh pc zero
  · exact shows
  · exact showsLastWrites_of_fresh rfl s.beginExecute_cell
  · have decoded := inv.bufferAgrees (by simp [execute]) _ _ current
    rcases exec_showsLastWrites hexec decoded shows with ⟨f, rfl⟩ | ⟨pc, shows'⟩
    · exact shows
    · rwa [executed_of_pc_succ current (exec_keeps_inputs_dp hexec).2 pc]
  · exact shows
  · exact shows
  · exact shows
  · exact shows

/-- The induction of a run: what holds when it starts and every step from a state with the invariant keeps holds in every
state of the run (R210). -/
theorem runFrom_keep {P : State → Prop} {inp : RunInputs} {k : Nat} (ended : s.running = false)
    (start : P (s.hostSupply inp).startRun) (keep : ∀ u v, Inv u → P u → step u = .next v → P v)
    (h : runFrom s inp (k + 1) = .next t) : P t := by
  have started : step (s.hostSupply inp) = .next (s.hostSupply inp).startRun :=
    step_of_idle (by rw [hostSupply_of_ended inp ended])
  have inv : Inv (s.hostSupply inp).startRun := inv_runFrom ended (steps_succ_of_next 0 started)
  have keepBoth (u v : State) (hu : Inv u ∧ P u) (huv : step u = .next v) : Inv v ∧ P v :=
    ⟨everyStepKeepsTheInvariant u v hu.1 huv, keep u v hu.1 hu.2 huv⟩
  exact (steps_keep keepBoth ⟨inv, start⟩ ((steps_succ_of_next k started).symm.trans h)).2

/-- Settles O32: a run starts with nothing executed and every cell 0, and every step keeps the cells at the most recent
writes; so it is in every phase, not only in those the statement names. -/
theorem cellsHoldTheMostRecentWrite : Obligations.CellsHoldTheMostRecentWrite :=
  fun s inp _ _ ended h _ =>
    runFrom_keep (P := fun u => ShowsLastWrites u.executed u) ended
      (showsLastWrites_of_fresh rfl (s.hostSupply inp).startRun_cell) (fun _ _ => step_showsLastWrites) h

end Sys2Proof.Machine
end

section
/-! PROOFS. Words and instructions (R60 to R75): a field is a run of bits, the bits outside the declared fields do not count,
and encoding and decoding undo each other. -/

namespace Sys2Proof

/-! ## Fields -/

/-- A slice is a contiguous run of bits, read as an unsigned integer (R67). -/
theorem slice_eq_extractLsb' (w : Word) (hi lo : Nat) : slice w hi lo = (w.extractLsb' lo (hi - lo + 1)).toNat := by
  rw [slice_eq_mod, BitVec.extractLsb'_toNat, Nat.shiftRight_eq_div_pow]

/-- A field below bit `n` is a field of the low `n` bits. -/
theorem slice_eq_of_low_bits_eq {w w' : Word} {n hi lo : Nat} (low : w'.toNat % 2 ^ n = w.toNat % 2 ^ n) (inside : hi < n)
    (ordered : lo ≤ hi) : slice w' hi lo = slice w hi lo := by
  refine Nat.eq_of_testBit_eq fun k => ?_
  simp only [slice_eq_mod, Nat.testBit_mod_two_pow, Nat.testBit_div_two_pow]
  by_cases field : k < hi - lo + 1
  · have bit := congrArg (Nat.testBit · (k + lo)) low
    simpa only [Nat.testBit_mod_two_pow, show k + lo < n by omega, decide_true, Bool.true_and, field] using bit
  · simp [field]

/-- The instruction's code is the word's (R61). -/
theorem opcodeOf_eq_code {w : Word} {i : Instr} (h : decodeWord w = .ok i) : opcodeOf w = i.code := by
  rcases decodeWord_ok_cases h with ⟨code, rfl⟩ | ⟨code, rfl⟩ | ⟨code, rfl⟩ | ⟨code, rfl⟩ <;> exact code

/-- Settles O3: a slice is a run of bits, and each code's decode takes its fields as slices. -/
theorem fieldsAreTheDeclaredBits : Obligations.FieldsAreTheDeclaredBits := by
  intro w
  have code : opcodeOf w = (w.extractLsb' 0 6).toNat := slice_eq_extractLsb' w 5 0
  refine ⟨fun hi lo _ _ => slice_eq_extractLsb' w hi lo, fun i h => ?_, fun h => ?_, fun h => ?_, fun h => ?_, fun h => ?_⟩
  · rw [← opcodeOf_eq_code h, code]
  · simpa only [slice_eq_extractLsb'] using decodeWord_of_57 (code.trans h)
  · simpa only [slice_eq_extractLsb'] using decodeWord_of_46 (code.trans h)
  · simpa only [slice_eq_extractLsb'] using decodeWord_of_11 (code.trans h)
  · simpa only [slice_eq_extractLsb'] using decodeWord_of_10 (code.trans h)

/-! ## Undeclared bits -/

/-- How many bits an instruction's format declares: its fields fill the low end of the word without a gap (R62 to R64). -/
@[simp] def Instr.declaredBits : Instr → Nat
  | .loadConst _ _ => 48
  | .loadMem _ _ => 34
  | .storeMem _ _ => 34
  | .ror _ _ _ _ => 59

/-- Clearing the undeclared bits leaves the low bits that the format declares. -/
theorem toNat_and_not_undeclaredMask (w : Word) (i : Instr) :
    (w &&& ~~~ i.undeclaredMask).toNat = w.toNat % 2 ^ i.declaredBits := by
  have declared : (~~~ i.undeclaredMask).toNat = 2 ^ i.declaredBits - 1 := by
    cases i <;> simp only [Instr.undeclaredMask, Instr.declaredBits] <;> decide
  rw [BitVec.toNat_and, declared, Nat.and_two_pow_sub_one_eq_mod]

/-- Clearing a mask changes nothing exactly when the word has no bit in it. -/
theorem and_not_eq_self_iff (w m : Word) : w &&& ~~~ m = w ↔ w &&& m = 0 := by
  simp only [BitVec.eq_of_getElem_eq_iff]
  refine forall₂_congr fun k hk => ?_
  simp only [BitVec.getElem_and, BitVec.getElem_not, BitVec.ofNat_eq_ofNat, BitVec.getElem_zero]
  cases w[k] <;> cases m[k] <;> decide

/-- Clearing a mask undoes every change inside it. -/
theorem xor_and_and_not (w u m : Word) : (w ^^^ (u &&& m)) &&& ~~~ m = w &&& ~~~ m := by
  refine BitVec.eq_of_getElem_eq fun k hk => ?_
  simp only [BitVec.getElem_and, BitVec.getElem_xor, BitVec.getElem_not]
  cases m[k] <;> simp

/-- The decode depends on the declared bits only (R72). -/
theorem decodeWord_eq_of_declared_bits_eq {w w' : Word} {i : Instr} (h : decodeWord w = .ok i)
    (same : w' &&& ~~~ i.undeclaredMask = w &&& ~~~ i.undeclaredMask) : decodeWord w' = .ok i := by
  have low : w'.toNat % 2 ^ i.declaredBits = w.toNat % 2 ^ i.declaredBits := by
    rw [← toNat_and_not_undeclaredMask, same, toNat_and_not_undeclaredMask]
  have field (hi lo : Nat) (inside : hi < i.declaredBits) (ordered : lo ≤ hi) : slice w hi lo = slice w' hi lo :=
    (slice_eq_of_low_bits_eq low inside ordered).symm
  have code : opcodeOf w = opcodeOf w' := field 5 0 (by cases i <;> simp) (by decide)
  rcases decodeWord_ok_cases h with ⟨c, rfl⟩ | ⟨c, rfl⟩ | ⟨c, rfl⟩ | ⟨c, rfl⟩
  · rw [decodeWord_of_57 (code ▸ c), field 19 6 (by simp) (by decide), field 47 20 (by simp) (by decide)]
  · rw [decodeWord_of_46 (code ▸ c), field 19 6 (by simp) (by decide), field 33 20 (by simp) (by decide)]
  · rw [decodeWord_of_11 (code ▸ c), field 19 6 (by simp) (by decide), field 33 20 (by simp) (by decide)]
  · rw [decodeWord_of_10 (code ▸ c), field 19 6 (by simp) (by decide), field 33 20 (by simp) (by decide),
      field 44 34 (by simp) (by decide), field 58 45 (by simp) (by decide)]

/-- Settles O4: a change inside the undeclared bits leaves the declared ones. -/
theorem undeclaredBitsAreIgnored : Obligations.UndeclaredBitsAreIgnored :=
  fun w u i h => decodeWord_eq_of_declared_bits_eq h (xor_and_and_not w u i.undeclaredMask)

/-! ## Encoded words -/

/-- OR-shifting a field in above the bits that are set is adding it (R77). -/
theorem or_shiftLeft_eq_add {acc n : Nat} (below : acc < 2 ^ n) (v : Nat) : acc ||| v <<< n = acc + v * 2 ^ n := by
  rw [Nat.or_comm, ← Nat.shiftLeft_add_eq_or_of_lt below, Nat.shiftLeft_eq, Nat.add_comm]

/-- The value of an instruction's word as a sum: each field's value at the field's lowest bit (R62 to R64). -/
def Instr.packed (i : Instr) : Nat :=
  match i with
  | .loadConst b c => i.code + b * 2 ^ 6 + c * 2 ^ 20
  | .loadMem b c => i.code + b * 2 ^ 6 + c * 2 ^ 20
  | .storeMem b c => i.code + b * 2 ^ 6 + c * 2 ^ 20
  | .ror b c d e => i.code + b * 2 ^ 6 + c * 2 ^ 20 + d * 2 ^ 34 + e * 2 ^ 45

theorem Instr.wellFormed_loadConst_iff {b c : Nat} : (loadConst b c).wellFormed = true ↔ b < 2 ^ 14 ∧ c < 2 ^ 28 := by
  simp [wellFormed]

theorem Instr.wellFormed_loadMem_iff {b c : Nat} : (loadMem b c).wellFormed = true ↔ b < 2 ^ 14 ∧ c < 2 ^ 14 := by
  simp [wellFormed]

theorem Instr.wellFormed_storeMem_iff {b c : Nat} : (storeMem b c).wellFormed = true ↔ b < 2 ^ 14 ∧ c < 2 ^ 14 := by
  simp [wellFormed]

theorem Instr.wellFormed_ror_iff {b c d e : Nat} :
    (ror b c d e).wellFormed = true ↔ b < 2 ^ 14 ∧ c < 2 ^ 14 ∧ d < 2 ^ 11 ∧ e < 2 ^ 14 := by
  simp [wellFormed, and_assoc]

theorem Instr.code_lt (i : Instr) : i.code < 2 ^ 6 := by cases i <;> simp [code]

/-- A code, B and C of at most 28 bits, OR-shifted into a word (R62, R63). -/
theorem toNat_pack_bc {a b c : Nat} (ha : a < 2 ^ 6) (hb : b < 2 ^ 14) (hc : c < 2 ^ 28) :
    (BitVec.ofNat 64 (a ||| b <<< 6 ||| c <<< 20)).toNat = a + b * 2 ^ 6 + c * 2 ^ 20 := by
  rw [or_shiftLeft_eq_add ha, or_shiftLeft_eq_add (by omega), BitVec.toNat_ofNat, Nat.mod_eq_of_lt (by omega)]

/-- A code, B, C, D and E, OR-shifted into a word (R64). -/
theorem toNat_pack_bcde {a b c d e : Nat} (ha : a < 2 ^ 6) (hb : b < 2 ^ 14) (hc : c < 2 ^ 14) (hd : d < 2 ^ 11)
    (he : e < 2 ^ 14) : (BitVec.ofNat 64 (a ||| b <<< 6 ||| c <<< 20 ||| d <<< 34 ||| e <<< 45)).toNat =
      a + b * 2 ^ 6 + c * 2 ^ 20 + d * 2 ^ 34 + e * 2 ^ 45 := by
  rw [or_shiftLeft_eq_add ha, or_shiftLeft_eq_add (n := 20) (by omega), or_shiftLeft_eq_add (n := 34) (by omega),
    or_shiftLeft_eq_add (n := 45) (by omega), BitVec.toNat_ofNat, Nat.mod_eq_of_lt (by omega)]

/-- The fields of a well-formed instruction do not overlap in its word, and none is cut. -/
theorem toNat_encode {i : Instr} (wf : i.wellFormed = true) : (encode i).toNat = i.packed := by
  cases i with
  | loadConst b c =>
    obtain ⟨hb, hc⟩ := Instr.wellFormed_loadConst_iff.1 wf
    exact toNat_pack_bc (Instr.code_lt _) hb hc
  | loadMem b c =>
    obtain ⟨hb, hc⟩ := Instr.wellFormed_loadMem_iff.1 wf
    exact toNat_pack_bc (Instr.code_lt _) hb (by omega)
  | storeMem b c =>
    obtain ⟨hb, hc⟩ := Instr.wellFormed_storeMem_iff.1 wf
    exact toNat_pack_bc (Instr.code_lt _) hb (by omega)
  | ror b c d e =>
    obtain ⟨hb, hc, hd, he⟩ := Instr.wellFormed_ror_iff.1 wf
    exact toNat_pack_bcde (Instr.code_lt _) hb hc hd he

/-- The low bits of a word that its instruction's format declares are the instruction's fields, packed. -/
theorem packed_of_decodeWord {w : Word} {i : Instr} (h : decodeWord w = .ok i) :
    i.packed = w.toNat % 2 ^ i.declaredBits := by
  have code : w.toNat % 2 ^ 6 = i.code := by simpa [opcodeOf, slice_eq_mod] using opcodeOf_eq_code h
  rcases decodeWord_ok_cases h with ⟨-, rfl⟩ | ⟨-, rfl⟩ | ⟨-, rfl⟩ | ⟨-, rfl⟩ <;>
    simp only [Instr.packed, Instr.code, Instr.declaredBits, slice_eq_mod] at code ⊢ <;> omega

/-- Decoding an encoded instruction gives it back (R75). -/
theorem decodeWord_encode {i : Instr} (wf : i.wellFormed = true) : decodeWord (encode i) = .ok i := by
  have value := toNat_encode wf
  have opcode : opcodeOf (encode i) = i.code := by
    rw [opcodeOf, slice_eq_mod, value]
    cases i <;> simp only [Instr.packed, Instr.code] <;> omega
  cases i with
  | loadConst b c =>
    obtain ⟨hb, hc⟩ := Instr.wellFormed_loadConst_iff.1 wf
    rw [decodeWord_of_57 opcode, slice_eq_mod, slice_eq_mod, value]
    congr <;> simp only [Instr.packed, Instr.code] <;> omega
  | loadMem b c =>
    obtain ⟨hb, hc⟩ := Instr.wellFormed_loadMem_iff.1 wf
    rw [decodeWord_of_46 opcode, slice_eq_mod, slice_eq_mod, value]
    congr <;> simp only [Instr.packed, Instr.code] <;> omega
  | storeMem b c =>
    obtain ⟨hb, hc⟩ := Instr.wellFormed_storeMem_iff.1 wf
    rw [decodeWord_of_11 opcode, slice_eq_mod, slice_eq_mod, value]
    congr <;> simp only [Instr.packed, Instr.code] <;> omega
  | ror b c d e =>
    obtain ⟨hb, hc, hd, he⟩ := Instr.wellFormed_ror_iff.1 wf
    rw [decodeWord_of_10 opcode, slice_eq_mod, slice_eq_mod, slice_eq_mod, slice_eq_mod, value]
    congr <;> simp only [Instr.packed, Instr.code] <;> omega

/-- Encoding what a word decodes to gives the word with its undeclared bits cleared (R75). -/
theorem encode_of_decodeWord {w : Word} {i : Instr} (h : decodeWord w = .ok i) :
    encode i = w &&& ~~~ i.undeclaredMask := by
  apply BitVec.eq_of_toNat_eq
  rw [toNat_encode (wellFormed_of_decodeWord h), packed_of_decodeWord h, toNat_and_not_undeclaredMask]

/-- An encoded word comes back exactly when the word has no undeclared bit set (R75). -/
theorem encode_eq_iff_of_decodeWord {w : Word} {i : Instr} (h : decodeWord w = .ok i) :
    encode i = w ↔ w &&& i.undeclaredMask = 0 := by
  rw [encode_of_decodeWord h, and_not_eq_self_iff]

/-- Settles O1: both directions of the round trip, and LOAD_CONST 0, 0 with and without its top undeclared bit. -/
theorem roundTripOfEncodeAndDecode : Obligations.RoundTripOfEncodeAndDecode :=
  ⟨fun _ => decodeWord_encode, fun _ _ h => ⟨encode_of_decodeWord h, encode_eq_iff_of_decodeWord h⟩,
    0x39, 0x8000000000000039, .loadConst 0 0, by decide, by decide, by decide⟩

/-- Settles O5: by the round trip the encoded word decodes, to an instruction that encodes to that same word. -/
theorem encodedWordsAreClean : Obligations.EncodedWordsAreClean := by
  intro i wf
  have decoded := decodeWord_encode wf
  refine ⟨(encode_eq_iff_of_decodeWord decoded).1 rfl, ?_⟩
  rw [← opcodeOf_eq_and, opcodeOf_eq_code decoded]

/-- Settles O6: each word decodes by computation. -/
theorem wordsOfTheSpecDecode : Obligations.WordsOfTheSpecDecode := by
  unfold Obligations.WordsOfTheSpecDecode
  decide

/-- Settles O7: the table has four rows, and each is checked field by field. -/
theorem formatsAreOrderedAndDisjoint : Obligations.FormatsAreOrderedAndDisjoint := by
  unfold Obligations.FormatsAreOrderedAndDisjoint
  decide

end Sys2Proof
end

section
/-! PROOFS. The toolchain (R76 to R87): the encoder's loop over a format's fields, the rows of an assembly, and the program
file. -/

namespace Sys2Proof.Machine

/-! ## The encoder's loop (R77 to R79) -/

section EncodeFields

variable {values : List (FieldName × Nat)} {acc v : Nat} {f : FieldRange} {rest : List FieldRange}

/-- A field that is present and narrow enough is OR-shifted in, and the loop goes on. -/
theorem encodeFields_cons_of_lt (present : valueOf values f.name = some v) (narrow : v < 2 ^ f.width) :
    encodeFields acc values (f :: rest) = encodeFields (acc ||| v <<< f.lo) values rest := by
  simp [encodeFields, present, Nat.not_le.2 narrow]

theorem encodeFields_cons_of_missing (missing : valueOf values f.name = none) :
    encodeFields acc values (f :: rest) = .error (.missingField f.name) := by
  simp [encodeFields, missing]

theorem encodeFields_cons_of_le (present : valueOf values f.name = some v) (wide : 2 ^ f.width ≤ v) :
    encodeFields acc values (f :: rest) = .error (.overflow f.name v) := by
  simp [encodeFields, present, wide]

/-- The loop gets past every run of fields that are present and narrow enough. -/
theorem encodeFields_append (before : List FieldRange)
    (good : ∀ g ∈ before, ∃ v, valueOf values g.name = some v ∧ v < 2 ^ g.width) :
    ∃ acc', encodeFields acc values (before ++ rest) = encodeFields acc' values rest := by
  induction before generalizing acc with
  | nil => exact ⟨acc, rfl⟩
  | cons g before ih =>
    obtain ⟨⟨v, present, narrow⟩, good⟩ := List.forall_mem_cons.1 good
    rw [List.cons_append, encodeFields_cons_of_lt present narrow]
    exact ih good

end EncodeFields

/-- The encoder fails as its loop does. -/
theorem encodeSpec_of_error {spec : InstrSpec} {values : List (FieldName × Nat)} {e : ToolError}
    (h : encodeFields 0 values spec.fields = .error e) : encodeSpec spec values = .error e := by
  rw [encodeSpec, h, Except.map]

/-- Settles O9: the loop reaches the field, and stops there. -/
theorem encoderReportsFirstBadField : Obligations.EncoderReportsFirstBadField := by
  intro spec _ before after f values fields good
  obtain ⟨acc, reached⟩ := encodeFields_append (acc := 0) (rest := f :: after) before good
  rw [← fields] at reached
  exact ⟨fun missing => encodeSpec_of_error (reached.trans (encodeFields_cons_of_missing missing)),
    fun v present wide => encodeSpec_of_error (reached.trans (encodeFields_cons_of_le present wide))⟩

/-- The loop over the format of an instruction without D and E (R62, R63), C ending at bit `hi`. -/
theorem encodeFields_bc {a b c hi : Nat} (ha : a < 2 ^ 6) (hb : b < 2 ^ 14) (hc : c < 2 ^ (hi - 20 + 1)) :
    encodeFields 0 [(.a, a), (.b, b), (.c, c)] [⟨.a, 0, 5⟩, ⟨.b, 6, 19⟩, ⟨.c, 20, hi⟩] =
      .ok (a ||| b <<< 6 ||| c <<< 20) := by
  rw [encodeFields_cons_of_lt rfl ha, encodeFields_cons_of_lt rfl hb, encodeFields_cons_of_lt rfl hc]
  simp [encodeFields]

/-- The loop over ROR's format (R64). -/
theorem encodeFields_bcde {a b c d e : Nat} (ha : a < 2 ^ 6) (hb : b < 2 ^ 14) (hc : c < 2 ^ 14) (hd : d < 2 ^ 11)
    (he : e < 2 ^ 14) :
    encodeFields 0 [(.a, a), (.b, b), (.c, c), (.d, d), (.e, e)] fmtBCDE =
      .ok (a ||| b <<< 6 ||| c <<< 20 ||| d <<< 34 ||| e <<< 45) := by
  rw [fmtBCDE, encodeFields_cons_of_lt rfl ha, encodeFields_cons_of_lt rfl hb, encodeFields_cons_of_lt rfl hc,
    encodeFields_cons_of_lt rfl hd, encodeFields_cons_of_lt rfl he]
  simp [encodeFields]

/-- The encoder answers the word of its loop's result. -/
theorem encodeSpec_of_ok {spec : InstrSpec} {values : List (FieldName × Nat)} {n : Nat}
    (h : encodeFields 0 values spec.fields = .ok n) : encodeSpec spec values = .ok (BitVec.ofNat 64 n) := by
  rw [encodeSpec, h, Except.map]

/-- Settles O8: each instruction's row of the table has the format whose fields `encode` shifts in. -/
theorem tableEncoderAgreesWithEncode : Obligations.TableEncoderAgreesWithEncode := by
  intro i wf spec row
  have ha := i.code_lt
  cases i with
  | loadConst b c =>
    obtain ⟨hb, hc⟩ := Instr.wellFormed_loadConst_iff.1 wf
    cases row
    exact encodeSpec_of_ok (encodeFields_bc ha hb hc)
  | loadMem b c =>
    obtain ⟨hb, hc⟩ := Instr.wellFormed_loadMem_iff.1 wf
    cases row
    exact encodeSpec_of_ok (encodeFields_bc ha hb hc)
  | storeMem b c =>
    obtain ⟨hb, hc⟩ := Instr.wellFormed_storeMem_iff.1 wf
    cases row
    exact encodeSpec_of_ok (encodeFields_bc ha hb hc)
  | ror b c d e =>
    obtain ⟨hb, hc, hd, he⟩ := Instr.wellFormed_ror_iff.1 wf
    cases row
    exact encodeSpec_of_ok (encodeFields_bcde ha hb hc hd he)

/-! ## The rows of an assembly (R83, R86) -/

/-- Row `k` is the first that fails, and it fails with `e`. -/
def FailsFirstAt (rows : List Row) (k : Nat) (e : ToolError) : Prop :=
  (∃ r, rows[k]? = some r ∧ assembleRow r = .error e) ∧
    ∀ (j : Nat) (r : Row), j < k → rows[j]? = some r → ∃ w, assembleRow r = .ok w

theorem not_failsFirstAt_nil (k : Nat) (e : ToolError) : ¬ FailsFirstAt [] k e := by simp [FailsFirstAt]

theorem failsFirstAt_zero_iff {r : Row} {rows : List Row} {e : ToolError} :
    FailsFirstAt (r :: rows) 0 e ↔ assembleRow r = .error e := by simp [FailsFirstAt]

theorem failsFirstAt_succ_iff {r : Row} {rows : List Row} {k : Nat} {e : ToolError} :
    FailsFirstAt (r :: rows) (k + 1) e ↔ (∃ w, assembleRow r = .ok w) ∧ FailsFirstAt rows k e := by
  constructor
  · rintro ⟨fails, before⟩
    exact ⟨before 0 r k.succ_pos rfl, fails, fun j r' hj => before (j + 1) r' (Nat.succ_lt_succ hj)⟩
  · rintro ⟨good, fails, before⟩
    refine ⟨fails, fun j r' hj hr => ?_⟩
    cases j with
    | zero => exact Option.some.inj hr ▸ good
    | succ j => exact before j r' (Nat.lt_of_succ_lt_succ hj) hr

section AssembleFrom

variable {r : Row} {rows : List Row} {k : Nat}

theorem assembleFrom_cons_of_error {e : ToolError} (h : assembleRow r = .error e) :
    assembleFrom k (r :: rows) = .error ⟨k, e⟩ := by simp [assembleFrom, h]

/-- After a row that gives a word, the assembly goes on with the next row. -/
theorem assembleFrom_cons_of_ok {w : Word} (h : assembleRow r = .ok w) :
    assembleFrom k (r :: rows) = (assembleFrom (k + 1) rows).map fun ws => w :: ws := by
  rw [assembleFrom, h]
  cases assembleFrom (k + 1) rows <;> rfl

end AssembleFrom

/-- Assembly gives words exactly when every row gives its word, one word a row in row order (R83). -/
theorem assembleFrom_eq_ok_iff {k : Nat} {rows : List Row} {ws : List Word} :
    assembleFrom k rows = .ok ws ↔ List.Forall₂ (fun r w => assembleRow r = .ok w) rows ws := by
  induction rows generalizing k ws with
  | nil => simp [assembleFrom, eq_comm]
  | cons r rows ih =>
    cases h : assembleRow r with
    | error e => simp [assembleFrom_cons_of_error h, List.forall₂_cons_left_iff, h]
    | ok w =>
      rw [assembleFrom_cons_of_ok h, List.forall₂_cons_left_iff]
      simp only [← ih (k := k + 1), h]
      cases assembleFrom (k + 1) rows <;> simp [Except.map, eq_comm]

/-- Assembly fails exactly with the failure of the first failing row, under that row's number (R86). -/
theorem assembleFrom_eq_error_iff {n m : Nat} {rows : List Row} {e : ToolError} :
    assembleFrom n rows = .error ⟨m, e⟩ ↔ ∃ k, m = n + k ∧ FailsFirstAt rows k e := by
  induction rows generalizing n with
  | nil => simp [assembleFrom, not_failsFirstAt_nil]
  | cons r rows ih =>
    rw [← Nat.or_exists_add_one]
    simp only [failsFirstAt_zero_iff, failsFirstAt_succ_iff]
    cases h : assembleRow r with
    | error e' => simp [assembleFrom_cons_of_error h, eq_comm]
    | ok w =>
      have goesOn : assembleFrom n (r :: rows) = .error ⟨m, e⟩ ↔ assembleFrom (n + 1) rows = .error ⟨m, e⟩ := by
        rw [assembleFrom_cons_of_ok h]
        cases assembleFrom (n + 1) rows <;> simp [Except.map]
      rw [goesOn, ih]
      simp [Nat.add_assoc, Nat.add_comm 1]

/-- Settles O49: the failure is the first failing row's, so where no row fails none is reported. -/
theorem assemblyReportsTheFirstFailingRow : Obligations.AssemblyReportsTheFirstFailingRow := by
  intro rows
  have reports (k : Nat) (e : ToolError) : assemble rows = .error ⟨k, e⟩ ↔ FailsFirstAt rows k e := by
    simp [assemble, assembleFrom_eq_error_iff]
  refine ⟨reports, fun good => ?_⟩
  cases h : assemble rows with
  | ok ws => exact ⟨ws, rfl⟩
  | error failure =>
    obtain ⟨⟨r, row, fails⟩, -⟩ := (reports failure.row failure.error).1 h
    obtain ⟨w, gives⟩ := good r (List.mem_of_getElem? row)
    cases fails.symm.trans gives

/-! ## The program file (R83) -/

/-- A file's first eight bytes are its first word. -/
theorem streamWords_wordBytes_append (w : Word) (bytes : List Byte) :
    streamWords (wordBytes w ++ bytes) = w :: streamWords bytes := by
  obtain ⟨b0, b1, b2, b3, b4, b5, b6, b7, eight⟩ :
      ∃ b0 b1 b2 b3 b4 b5 b6 b7, wordBytes w = [b0, b1, b2, b3, b4, b5, b6, b7] := by
    simp [wordBytes, List.range, List.range.loop]
  have value := littleEndian_wordBytes w
  rw [eight] at value ⊢
  simp only [List.cons_append, List.nil_append, streamWords, value]

theorem length_programFile (ws : List Word) : (programFile ws).length = 8 * ws.length := by
  simp [programFile, wordBytes, List.length_flatMap, Nat.mul_comm]

/-- Cutting a program file into words gives the words it was made of. -/
theorem streamWords_programFile (ws : List Word) : streamWords (programFile ws) = ws := by
  induction ws with
  | nil => rfl
  | cons w ws ih => rw [programFile, List.flatMap_cons, streamWords_wordBytes_append, ← programFile, ih]

/-- Settles O10: the rows and the words correspond one to one, and the machine fetches the words of the stream, which are
the words of the file. -/
theorem assembledFileReloads : Obligations.AssembledFileReloads := by
  refine ⟨fun rows ws assembled => ?_, fun ws => ⟨length_programFile ws, streamWords_programFile ws, fun k w word => ?_⟩⟩
  · have rowwise := assembleFrom_eq_ok_iff.1 assembled
    refine ⟨rowwise.length_eq.symm, fun k r w row word => ?_⟩
    obtain ⟨hk, rfl⟩ := List.getElem?_eq_some_iff.1 row
    obtain ⟨hk', rfl⟩ := List.getElem?_eq_some_iff.1 word
    exact rowwise.get hk hk'
  · exact Memory.fetchWord_streamWords _ k w ((streamWords_programFile ws).symm ▸ word)

end Sys2Proof.Machine
end

section
/-! PROOFS. The decoder (R106, R109) and the machine's way to place a word (log 6). -/

namespace Sys2Proof

/-- An instruction that decodes has a row in the table, and its fields are that row's fields of the word (R66, R67, R106). -/
theorem exists_spec_of_decodeWord {w : Word} {i : Instr} (h : decodeWord w = .ok i) :
    ∃ spec, specOfCode i.code = some spec ∧
      i.fieldValues = spec.fields.map fun f => (f.name, slice w f.hi f.lo) := by
  have code : slice w 5 0 = i.code := opcodeOf_eq_code h
  rcases decodeWord_ok_cases h with ⟨-, rfl⟩ | ⟨-, rfl⟩ | ⟨-, rfl⟩ | ⟨-, rfl⟩
  · exact ⟨_, rfl, by simp [Instr.fieldValues, fmtBC28, code]⟩
  · exact ⟨_, rfl, by simp [Instr.fieldValues, fmtBC14, code]⟩
  · exact ⟨_, rfl, by simp [Instr.fieldValues, fmtBC14, code]⟩
  · exact ⟨_, rfl, by simp [Instr.fieldValues, fmtBCDE, code]⟩

/-- The table has no row for an unassigned code (R71). -/
theorem specOfCode_of_unassigned {code : Nat} (h : code ∉ [57, 46, 11, 10]) : specOfCode code = none := by
  simp only [List.mem_cons, List.not_mem_nil, or_false, not_or] at h
  obtain ⟨not57, not46, not11, not10⟩ := h
  simp [specOfCode, opcodeTable, Ne.symm not57, Ne.symm not46, Ne.symm not11, Ne.symm not10]

/-- Settles O2: a word decodes unless its code is unassigned, and what it decodes to is read off its row of the table. -/
theorem decoderIsTotalWithOneFailure : Obligations.DecoderIsTotalWithOneFailure := by
  intro w
  rw [← opcodeOf_eq_and]
  refine ⟨fun assigned => ?_, fun unassigned =>
    ⟨decodeWord_of_unassigned unassigned, specOfCode_of_unassigned unassigned⟩⟩
  cases decoded : decodeWord w with
  | error e => exact absurd assigned (decodeWord_error_cases decoded).2
  | ok i =>
    obtain ⟨spec, row, fields⟩ := exists_spec_of_decodeWord decoded
    have code := opcodeOf_eq_code decoded
    exact ⟨i, spec, rfl, code.symm, wellFormed_of_decodeWord decoded, code ▸ row, fields⟩

namespace Machine

/-- A word that decodes is placed as a one-word program about to execute. -/
theorem placeWord_of_ok {s : State} {w : Word} {i : Instr} (h : decodeWord w = .ok i) :
    s.placeWord w =
      { s with
        prog := Memory.ofBytes (wordBytes w), progLen := Config.wordBytes
        dp := [i], pc := 0, phase := .execute } := by
  rw [State.placeWord, h]

/-- The program store loaded with the bytes of one word holds that word (R43). -/
theorem Memory.fetchWord_ofBytes_wordBytes (w : Word) : (Memory.ofBytes (wordBytes w)).fetchWord 0 = w := by
  have words : streamWords (wordBytes w) = [w] := by
    simpa [streamWords] using streamWords_wordBytes_append w []
  exact Memory.fetchWord_streamWords _ 0 w (by rw [words]; rfl)

/-- Settles O22: the placed state executes with the decoded instruction at pc and the word's bytes in the program store. -/
theorem placedWordRunsNext : Obligations.PlacedWordRunsNext := by
  intro s nbits w i h
  have decoded : decodeWord (tableWord nbits w) = .ok i := decodeTableWord_eq_some.1 h
  rw [State.withFetchWord, placeWord_of_ok decoded]
  exact ⟨(step_of_execute rfl).trans (executeStage_of_some rfl), Memory.fetchWord_ofBytes_wordBytes _, fun _ => rfl⟩

end Machine

end Sys2Proof
end

section
/-! PROOFS. The steps of the stages FRAME, DECODE, EXECUTE and DUMP (R101, R104, R106, R110 to R115, R119). -/

namespace Sys2Proof.Machine

/-- Settles O17: the length check raises, or only enters DECODE. -/
theorem lengthCheckComesFirst : Obligations.LengthCheckComesFirst := by
  intro s frame
  refine ⟨fun rest => ?_, fun multiple => ?_⟩
  · exact ⟨_, (step_of_frame frame).trans (congrArg _ (frameStage_of_rest rest)), raised_raise s _, step_raise s _⟩
  · rw [step_of_frame frame, frameStage_of_multiple multiple, State.enter]

/-- Settles O18: the word at the index that is the length of DP decodes and is appended, or its code is raised. -/
theorem decodePassTakesTheNextWord : Obligations.DecodePassTakesTheNextWord := by
  intro s decode left
  rw [step_of_decode decode, ← opcodeOf_eq_and]
  refine ⟨fun i decoded => ?_, fun unassigned => ?_⟩
  · rw [decodeStage_of_ok left decoded, State.appendDecoded]
  · rw [decodeStage_of_error left (decodeWord_of_unassigned unassigned)]
    exact ⟨_, rfl, raised_raise s _⟩

/-- Settles O19: with no word left the step is `beginExecute`. -/
theorem executePassStartsFromZero : Obligations.ExecutePassStartsFromZero := by
  intro s decode all
  refine ⟨s.beginExecute, ?_, rfl, s.beginExecute_cell, rfl, rfl, ⟨rfl, rfl, rfl, rfl⟩,
    sameInputs_of_eq rfl rfl rfl rfl rfl⟩
  rw [step_of_decode decode, decodeStage_of_end all.ge]

/-- Settles O21: DP holds at pc what the word at pc decodes to. -/
theorem stepRunsTheDecodedInstruction : Obligations.StepRunsTheDecodedInstruction := by
  intro s i execute inside agrees decoded
  have current : s.dp[s.pc]? = some s.dp[s.pc] := List.getElem?_eq_getElem inside
  have same : s.dp[s.pc] = i := Except.ok.inj ((agrees _ _ current).symm.trans decoded)
  rw [step_of_execute execute, executeStage_of_some current, same]

/-- Settles O34: of the ends of an instruction only the raise leaves EXECUTE for FAULTED, and a raised fault is what every
further run stops with. -/
theorem faultingInstructionHasNoEffect : Obligations.FaultingInstructionHasNoEffect := by
  intro i s t execute h faulted
  rcases exec_next_cases h with ⟨f, rfl⟩ | ⟨rd, v, rfl, -⟩ | rfl
  · exact ⟨f, raised_raise s f, steps_raise s f⟩
  · simp [execute] at faulted
  · simp [execute] at faulted

theorem windowLegal_eq_false_iff {a b : Nat} : windowLegal a b = false ↔ a > b ∨ b > 2047 := by
  rw [← Bool.not_eq_true, windowLegal_iff]
  omega

theorem step_of_dump_legal {s : State} (dump : s.phase = .dump) (legal : windowLegal s.winStart s.winEnd = true) :
    step s = .next (s.finish (dumpRows s.x s.winStart s.winEnd)) := by
  rw [step_of_dump dump, dumpStage_of_legal legal]

theorem step_of_dump_illegal {s : State} (dump : s.phase = .dump)
    (illegal : windowLegal s.winStart s.winEnd = false) :
    step s = .next (s.raise (.outOfRange s.winStart s.winEnd)) := by
  rw [step_of_dump dump, dumpStage_of_illegal illegal]

/-- Settles O36: the window check of DUMP raises with both bounds, or the run ends. -/
theorem illegalWindowRaisesOutOfRange : Obligations.IllegalWindowRaisesOutOfRange := by
  intro s dump
  refine ⟨fun illegal => ?_, fun ordered inside => ?_⟩
  · exact ⟨_, step_of_dump_illegal dump (windowLegal_eq_false_iff.2 illegal), raised_raise s _⟩
  · exact ⟨_, step_of_dump_legal dump (windowLegal_iff.2 ⟨ordered, inside⟩), rfl, rfl⟩

/-! ## The rows of the dump (R119) -/

/-- Inside the register file the dump has a row for every index of the window. -/
theorem dumpRows_eq_map {x : RegFile} {a b : Nat} (inside : b ≤ 2047) :
    dumpRows x a b = (List.range' a (b + 1 - a)).map fun i => (i, x.cells.getD i 0) := by
  rw [dumpRows, ← List.filterMap_eq_map]
  refine List.filterMap_congr fun i hi => ?_
  have index : i < x.cells.length := by
    have := List.mem_range'_1.1 hi
    rw [x.size, Config.nreg]
    omega
  simp [List.getElem?_eq_getElem index]

/-- The row of a cell of the window stands at the cell's distance from the window's start. -/
theorem getElem?_dumpRows {x : RegFile} {a b j : Nat} {r : Fin Config.nreg} (inside : b ≤ 2047)
    (row : r.val = a + j) (inWindow : r.val ≤ b) : (dumpRows x a b)[j]? = some (r.val, x.get r) := by
  have cell : x.cells.getD r.val 0 = x.get r := by rw [List.getD_eq_getElem?_getD, x.getElem?_cells, Option.getD_some]
  rw [dumpRows_eq_map inside, List.getElem?_map, List.getElem?_range' (by omega), Nat.one_mul, ← row, Option.map_some,
    cell]

/-- Of a register file that is all 0 every row shows 0 (R103). -/
theorem dumpRows_zero {a b : Nat} (inside : b ≤ 2047) :
    dumpRows RegFile.zero a b = (List.range' a (b + 1 - a)).map fun i => (i, 0) := by
  rw [dumpRows_eq_map inside]
  refine List.map_congr_left fun i hi => ?_
  have := List.mem_range'_1.1 hi
  rw [List.getD_eq_getElem?_getD, RegFile.getElem?_zero i (by simp only [Config.nreg]; omega), Option.getD_some]

/-- Settles O37: the step only finishes the run with `dumpRows`, which has one row for each index of the window. -/
theorem dumpShowsTheWindow : Obligations.DumpShowsTheWindow := by
  intro s dump ordered inside
  refine ⟨_, step_of_dump_legal dump (windowLegal_iff.2 ⟨ordered, inside⟩), rfl, rfl, ?_,
    fun j r => getElem?_dumpRows inside, fun _ => rfl, rfl, rfl, sameInputs_of_eq rfl rfl rfl rfl rfl⟩
  rw [State.finish_dump, dumpRows_eq_map inside, List.length_map, List.length_range']
  omega

/-! ## The window outside DUMP (R116) -/

section Window

variable {s : State} {ws we : Nat}

/-- The same answer with another output window in its next state. -/
def resultWithWindow (ws we : Nat) : Result → Result
  | .next t => .next (t.withWindow ws we)
  | .fault f => .fault f
  | .refused r => .refused r

theorem frameStage_withWindow : frameStage (s.withWindow ws we) = (frameStage s).withWindow ws we := by
  by_cases multiple : s.progLen % 8 = 0
  · rw [frameStage_of_multiple multiple, frameStage_of_multiple (s := s.withWindow ws we) multiple]
    rfl
  · rw [frameStage_of_rest multiple, frameStage_of_rest (s := s.withWindow ws we) multiple]
    rfl

theorem decodeStage_withWindow : decodeStage (s.withWindow ws we) = (decodeStage s).withWindow ws we := by
  rcases Nat.lt_or_ge s.dp.length s.nWords with left | all
  · cases decoded : decodeWord (s.prog.fetchWord s.dp.length) with
    | ok i =>
      rw [decodeStage_of_ok left decoded, decodeStage_of_ok (s := s.withWindow ws we) left decoded]
      rfl
    | error e =>
      rw [decodeStage_of_error left decoded, decodeStage_of_error (s := s.withWindow ws we) left decoded]
      rfl
  · rw [decodeStage_of_end all, decodeStage_of_end (s := s.withWindow ws we) all]
    rfl

theorem exec_of_runInstr_ok {i : Instr} {x : RegFile} (h : runInstr s.rorPolicy s.pc s.x i = .ok x) :
    exec i s = .next { s with x := x, pc := s.pc + 1 } := by
  rw [exec_eq_runInstr, h]

theorem exec_of_runInstr_error {i : Instr} {f : Fault} (h : runInstr s.rorPolicy s.pc s.x i = .error f) :
    exec i s = .next (s.raise f) := by
  rw [exec_eq_runInstr, h]

/-- An instruction reads only cells, pc and the policy. -/
theorem exec_withWindow (i : Instr) : exec i (s.withWindow ws we) = resultWithWindow ws we (exec i s) := by
  cases body : runInstr s.rorPolicy s.pc s.x i with
  | ok x =>
    rw [exec_of_runInstr_ok body, exec_of_runInstr_ok (s := s.withWindow ws we) body]
    rfl
  | error f =>
    rw [exec_of_runInstr_error body, exec_of_runInstr_error (s := s.withWindow ws we) body]
    rfl

theorem executeStage_withWindow :
    executeStage (s.withWindow ws we) = resultWithWindow ws we (executeStage s) := by
  cases current : s.dp[s.pc]? with
  | some i =>
    rw [executeStage_of_some current, executeStage_of_some (s := s.withWindow ws we) current, exec_withWindow]
  | none =>
    have past := List.getElem?_eq_none_iff.1 current
    rw [executeStage_of_end past, executeStage_of_end (s := s.withWindow ws we) past]
    rfl

/-- A faulted machine looks only at its fault record (R182). -/
theorem reportFault_withWindow : reportFault (s.withWindow ws we) = resultWithWindow ws we (reportFault s) := by
  have sameRecord : (s.withWindow ws we).faultRecord = s.faultRecord := rfl
  rw [reportFault, reportFault, sameRecord]
  cases s.faultRecord <;> rfl

theorem step_of_faulted_eq_reportFault (faulted : s.phase = .faulted) : step s = reportFault s := by
  rw [step, faulted]

/-- Outside DUMP a step commutes with a change of the window. -/
theorem step_withWindow (notDump : s.phase ≠ .dump) :
    step (s.withWindow ws we) = resultWithWindow ws we (step s) := by
  have samePhase : (s.withWindow ws we).phase = s.phase := rfl
  cases phase : s.phase with
  | idle =>
    rw [step_of_idle phase, step_of_idle (samePhase.trans phase)]
    rfl
  | frame =>
    rw [step_of_frame phase, step_of_frame (samePhase.trans phase), frameStage_withWindow]
    rfl
  | decode =>
    rw [step_of_decode phase, step_of_decode (samePhase.trans phase), decodeStage_withWindow]
    rfl
  | execute => rw [step_of_execute phase, step_of_execute (samePhase.trans phase), executeStage_withWindow]
  | dump => exact absurd phase notDump
  | done =>
    rw [step_of_done phase, step_of_done (samePhase.trans phase)]
    rfl
  | faulted =>
    rw [step_of_faulted_eq_reportFault phase, step_of_faulted_eq_reportFault (samePhase.trans phase),
      reportFault_withWindow]

end Window

/-- Settles O38: the step commutes with the change of the window. -/
theorem windowDoesNotInfluenceExecution : Obligations.WindowDoesNotInfluenceExecution :=
  fun _ _ _ notDump => ⟨fun _ h => by rw [step_withWindow notDump, h]; rfl,
    fun _ h => by rw [step_withWindow notDump, h]; rfl⟩

end Sys2Proof.Machine
end

section
/-! PROOFS. A whole run (R103, R108, R111, R121, R122): the branches of the run function, the states the machine passes on
the way, and from these the refinement of the run function by the machine. -/

namespace Sys2Proof.Machine

variable {s t u : State} {inp : RunInputs} {f : Fault} {dp : List Instr} {x : RegFile}

/-! ## The run function, branch by branch (R122) -/

theorem run_of_truncated (rest : inp.prog.length % 8 ≠ 0) : run inp = .fault (.truncatedWord inp.prog.length) :=
  if_pos rest

section Whole

variable (whole : inp.prog.length % 8 = 0)
include whole

theorem run_of_undecodable (undecodable : decodePass 0 (streamWords inp.prog) = .error f) : run inp = .fault f := by
  simp [run, whole, undecodable]

variable (decoded : decodePass 0 (streamWords inp.prog) = .ok dp)
include decoded

theorem run_of_executeFault (faults : executePass inp.rorPolicy 0 RegFile.zero dp = .error f) : run inp = .fault f := by
  simp [run, whole, decoded, faults]

variable (executed : executePass inp.rorPolicy 0 RegFile.zero dp = .ok x)
include executed

theorem run_of_illegalWindow (illegal : windowLegal inp.winStart inp.winEnd = false) :
    run inp = .fault (.outOfRange inp.winStart inp.winEnd) := by
  simp [run, whole, decoded, executed, windowLegal_eq_false_iff.1 illegal]

theorem run_of_legalWindow (legal : windowLegal inp.winStart inp.winEnd = true) :
    run inp = .ok (dumpRows x inp.winStart inp.winEnd) := by
  obtain ⟨ordered, inside⟩ := windowLegal_iff.1 legal
  simp [run, whole, decoded, executed, Nat.not_lt.2 ordered, Nat.not_lt.2 inside]

end Whole

/-- The decode pass gives one instruction a word. -/
theorem length_of_decodePass {k : Nat} {words : List Word} (h : decodePass k words = .ok dp) :
    dp.length = words.length := by
  induction words generalizing k dp with
  | nil => cases h; rfl
  | cons w words ih =>
    rw [decodePass] at h
    cases hw : decodeWord w with
    | error e => rw [hw] at h; cases h
    | ok i =>
      cases later : decodePass (k + 1) words with
      | error f => rw [hw, later] at h; cases h
      | ok is =>
        rw [hw, later] at h
        cases h
        simp [ih later]

theorem length_of_decoded (decoded : decodePass 0 (streamWords inp.prog) = .ok dp) : dp.length = inp.nWords :=
  (length_of_decodePass decoded).trans (streamWords_length inp.prog)

/-! ## The machine's states on the way -/

/-- The state of a run with the inputs `inp` on which nothing has been reported yet. -/
def RunInputs.underWay (inp : RunInputs) (phase : Phase) (dp : List Instr) (x : RegFile) (pc : Nat) : State where
  x := x
  pc := pc
  dp := dp
  phase := phase
  faultRecord := none
  status := 0
  faultInfo := ⟨0, 0, 0⟩
  dump := []
  prog := Memory.ofBytes inp.prog
  progLen := inp.prog.length
  winStart := inp.winStart
  winEnd := inp.winEnd
  rorPolicy := inp.rorPolicy

/-- Once a run has raised a fault it stops with it, however many more steps are asked for. -/
theorem runFrom_eq_fault {a b n : Nat} (reached : runFrom s inp a = .next u) (raised : steps b u = .next (t.raise f))
    (later : a + b < n) : runFrom s inp n = .fault f := by
  obtain ⟨k, rfl⟩ := Nat.exists_eq_add_of_lt later
  have faulted : runFrom s inp (a + b) = .next (t.raise f) := (steps_add_of_next b reached).trans raised
  exact (steps_add_of_next (k + 1) faulted).trans (steps_raise t f k)

/-- The decode pass of the machine on the loaded stream, which has the words of the stream (R102, R104). -/
theorem steps_decodePass_streamWords :
    match decodePass 0 (streamWords inp.prog) with
    | .ok dp => steps inp.nWords (inp.underWay .decode [] RegFile.zero 0) =
        .next (inp.underWay .decode dp RegFile.zero 0)
    | .error f => ∃ t : State, ∃ j < inp.nWords,
        steps (j + 1) (inp.underWay .decode [] RegFile.zero 0) = .next (t.raise f) := by
  have words : (streamWords inp.prog).length = inp.nWords := streamWords_length inp.prog
  have pass := steps_decodePass (streamWords inp.prog) (inp.underWay .decode [] RegFile.zero 0) rfl
    ((Nat.zero_add _).trans words) fun j w word => by
      simpa [RunInputs.underWay] using Memory.fetchWord_streamWords inp.prog j w word
  rw [words] at pass
  exact pass

/-- The execute pass of the machine on a decoded program (R111). -/
theorem steps_executePass_underWay (decoded : decodePass 0 (streamWords inp.prog) = .ok dp) :
    match executePass inp.rorPolicy 0 RegFile.zero dp with
    | .ok x => steps inp.nWords (inp.underWay .execute dp RegFile.zero 0) =
        .next (inp.underWay .execute dp x inp.nWords)
    | .error f => ∃ t : State, ∃ j < inp.nWords,
        steps (j + 1) (inp.underWay .execute dp RegFile.zero 0) = .next (t.raise f) := by
  have pass := steps_executePass dp (inp.underWay .execute dp RegFile.zero 0) rfl rfl
  rw [length_of_decoded decoded, RunInputs.underWay, Nat.zero_add] at pass
  exact pass

section Reached

variable (ended : s.running = false)
include ended

/-- The first step starts the run, with nothing left of what the machine held before (R210). -/
theorem runFrom_started : runFrom s inp 1 = .next (inp.underWay .frame [] RegFile.zero 0) := by
  have supplied := hostSupply_of_ended inp ended
  rw [runFrom, supplied]
  rfl

/-- A length that is no multiple of 8 stops the run (R101). -/
theorem runFrom_of_truncated {n : Nat} (rest : inp.prog.length % 8 ≠ 0) (later : 2 < n) :
    runFrom s inp n = .fault (.truncatedWord inp.prog.length) := by
  have raises : step (inp.underWay .frame [] RegFile.zero 0) = .next (State.raise _ _) :=
    (step_of_frame rfl).trans (congrArg _ (frameStage_of_rest rest))
  exact runFrom_eq_fault (runFrom_started ended) (steps_succ_of_next 0 raises) later

variable (whole : inp.prog.length % 8 = 0)
include whole

/-- The second step passes the length check (R101). -/
theorem runFrom_framed : runFrom s inp 2 = .next (inp.underWay .decode [] RegFile.zero 0) := by
  have enters : step (inp.underWay .frame [] RegFile.zero 0) = .next (State.enter _ .decode) :=
    (step_of_frame rfl).trans (congrArg _ (frameStage_of_multiple whole))
  exact (steps_succ_last (runFrom_started ended)).trans enters

/-- A word that does not decode stops the run in DECODE (R106). -/
theorem runFrom_of_undecodable {n : Nat} (undecodable : decodePass 0 (streamWords inp.prog) = .error f)
    (later : inp.nWords + 2 < n) : runFrom s inp n = .fault f := by
  have pass := steps_decodePass_streamWords (inp := inp)
  rw [undecodable] at pass
  obtain ⟨t, j, inside, raised⟩ := pass
  exact runFrom_eq_fault (runFrom_framed ended whole) raised (by omega)

variable (decoded : decodePass 0 (streamWords inp.prog) = .ok dp)
include decoded

/-- One step a word, and one that starts the execute pass with every cell 0 and pc 0 (R104, R110). -/
theorem runFrom_decoded : runFrom s inp (inp.nWords + 3) = .next (inp.underWay .execute dp RegFile.zero 0) := by
  have pass := steps_decodePass_streamWords (inp := inp)
  rw [decoded] at pass
  have starts : step (inp.underWay .decode dp RegFile.zero 0) = .next (State.beginExecute _) :=
    (step_of_decode rfl).trans (congrArg _ (decodeStage_of_end (length_of_decoded decoded).ge))
  have reached : runFrom s inp (2 + inp.nWords) = .next _ :=
    (steps_add_of_next inp.nWords (runFrom_framed ended whole)).trans pass
  rw [show inp.nWords + 3 = 2 + inp.nWords + 1 by omega]
  exact (steps_succ_last reached).trans starts

/-- An instruction that faults stops the run in EXECUTE (R114). -/
theorem runFrom_of_executeFault {n : Nat} (faults : executePass inp.rorPolicy 0 RegFile.zero dp = .error f)
    (later : 2 * inp.nWords + 3 < n) : runFrom s inp n = .fault f := by
  have pass := steps_executePass_underWay decoded
  rw [faults] at pass
  obtain ⟨t, j, inside, raised⟩ := pass
  exact runFrom_eq_fault (runFrom_decoded ended whole decoded) raised (by omega)

variable (executed : executePass inp.rorPolicy 0 RegFile.zero dp = .ok x)
include executed

/-- One step an instruction, and one that enters DUMP with pc = N (R111). -/
theorem runFrom_executed :
    runFrom s inp (2 * inp.nWords + 4) = .next (inp.underWay .dump dp x inp.nWords) := by
  have pass := steps_executePass_underWay decoded
  rw [executed] at pass
  have reached : runFrom s inp (inp.nWords + 3 + inp.nWords) = .next (inp.underWay .execute dp x inp.nWords) :=
    (steps_add_of_next inp.nWords (runFrom_decoded ended whole decoded)).trans pass
  have enters : step (inp.underWay .execute dp x inp.nWords) = .next (State.enter _ .dump) :=
    (step_of_execute rfl).trans (executeStage_of_end (length_of_decoded decoded).le)
  rw [show 2 * inp.nWords + 4 = inp.nWords + 3 + inp.nWords + 1 by omega]
  exact (steps_succ_last reached).trans enters

/-- A window that is not legal stops the run in DUMP (R115). -/
theorem runFrom_of_illegalWindow {n : Nat} (illegal : windowLegal inp.winStart inp.winEnd = false)
    (later : 2 * inp.nWords + 5 < n) : runFrom s inp n = .fault (.outOfRange inp.winStart inp.winEnd) :=
  runFrom_eq_fault (runFrom_executed ended whole decoded executed)
    (steps_succ_of_next 0 (step_of_dump_illegal rfl illegal)) later

/-- A legal window ends the run DONE with its rows (R119). -/
theorem runFrom_of_legalWindow (legal : windowLegal inp.winStart inp.winEnd = true) :
    runFrom s inp (2 * inp.nWords + 5) =
      .next ((inp.underWay .dump dp x inp.nWords).finish (dumpRows x inp.winStart inp.winEnd)) :=
  (steps_succ_last (runFrom_executed ended whole decoded executed)).trans (step_of_dump_legal rfl legal)

end Reached

/-! ## The statements about runs -/

/-- Settles O45: in each branch of the run function the machine passes through the states of the stages before it, and ends
as the branch says. -/
theorem machineRefinesTheRunFunction : Obligations.MachineRefinesTheRunFunction := by
  intro s inp ended
  by_cases whole : inp.prog.length % 8 = 0
  case neg =>
    rw [run_of_truncated whole]
    exact runFrom_of_truncated ended whole (by omega)
  cases decoded : decodePass 0 (streamWords inp.prog) with
  | error f =>
    rw [run_of_undecodable whole decoded]
    exact runFrom_of_undecodable ended whole decoded (by omega)
  | ok dp =>
    cases executed : executePass inp.rorPolicy 0 RegFile.zero dp with
    | error f =>
      rw [run_of_executeFault whole decoded executed]
      exact runFrom_of_executeFault ended whole decoded executed (by omega)
    | ok x =>
      cases legal : windowLegal inp.winStart inp.winEnd with
      | false =>
        rw [run_of_illegalWindow whole decoded executed legal]
        exact runFrom_of_illegalWindow ended whole decoded executed legal (by omega)
      | true =>
        rw [run_of_legalWindow whole decoded executed legal]
        exact ⟨_, runFrom_of_legalWindow ended whole decoded executed legal, rfl, rfl, rfl, rfl⟩

/-- Every state of a run holds the inputs that the host supplied (R32). -/
theorem runFrom_inputs {k : Nat} (ended : s.running = false) (h : runFrom s inp (k + 1) = .next t) :
    t.prog = Memory.ofBytes inp.prog ∧ t.progLen = inp.prog.length := by
  refine runFrom_keep (P := fun u => u.prog = Memory.ofBytes inp.prog ∧ u.progLen = inp.prog.length) ended
    ?_ (fun u v _ held hstep => ?_) h
  · rw [hostSupply_of_ended inp ended]
    exact ⟨rfl, rfl⟩
  · have same := step_sameInputs hstep
    exact ⟨same.prog.trans held.1, same.progLen.trans held.2⟩

/-- A run that is DONE has executed all N instructions (R111). -/
theorem runFrom_done_pc {k : Nat} (ended : s.running = false) (h : runFrom s inp (k + 1) = .next t)
    (done : t.phase = .done) : t.pc = inp.nWords := by
  rw [(inv_runFrom ended h).atEnd (.inr done), State.nWords, (runFrom_inputs ended h).2, RunInputs.nWords]

/-- Settles O46: the run function has a result for every program, and the machine computes it. -/
theorem everyRunTerminates : Obligations.EveryRunTerminates := by
  intro s inp ended
  have refines := machineRefinesTheRunFunction s inp ended
  cases outcome : run inp with
  | fault f =>
    rw [outcome] at refines
    exact .inl ⟨f, refines⟩
  | ok rows =>
    rw [outcome] at refines
    obtain ⟨t, reached, done, -⟩ := refines
    exact .inr ⟨t, reached, done, runFrom_done_pc ended reached done, step_of_done done⟩

/-- Settles O48: the run function has nothing to decode or to execute and shows the cells as the execute pass starts them. -/
theorem emptyProgramDumpsZeros : Obligations.EmptyProgramDumpsZeros := by
  intro s inp ended empty ordered inside
  have noWords : inp.nWords = 0 := by rw [RunInputs.nWords, empty]; rfl
  have outcome : run inp = .ok (dumpRows RegFile.zero inp.winStart inp.winEnd) :=
    run_of_legalWindow (by rw [empty]; rfl) (dp := []) (by rw [empty]; rfl) rfl (windowLegal_iff.2 ⟨ordered, inside⟩)
  have refines := machineRefinesTheRunFunction s inp ended
  rw [outcome, noWords] at refines
  obtain ⟨t, reached, done, rows, -⟩ := refines
  refine ⟨t, reached, done, noWords ▸ runFrom_done_pc ended reached done, ?_⟩
  rw [rows, dumpRows_zero inside, Nat.sub_add_comm ordered]

/-- With the decoded program full and in agreement with the program store every word of the program decodes (R104). -/
theorem decodes_of_bufferFull {w : Word} (full : t.dp.length = inp.nWords)
    (agrees : ∀ j i, t.dp[j]? = some i → decodeWord (t.prog.fetchWord j) = .ok i)
    (loaded : t.prog = Memory.ofBytes inp.prog) (word : w ∈ streamWords inp.prog) : ∃ i, decodeWord w = .ok i := by
  obtain ⟨j, hj⟩ := List.mem_iff_getElem?.1 word
  have inside : j < t.dp.length := by
    rw [full, RunInputs.nWords, ← streamWords_length]
    exact (List.getElem?_eq_some_iff.1 hj).1
  have decoded := agrees j _ (List.getElem?_eq_getElem inside)
  rw [loaded, Memory.fetchWord_streamWords inp.prog j w hj] at decoded
  exact ⟨_, decoded⟩

/-- Settles O20: before the execute pass the invariant has every cell 0, and from it on a full decoded program. -/
theorem wholeProgramDecodesBeforeExecution : Obligations.WholeProgramDecodesBeforeExecution := by
  intro s inp k t ended h
  have inv := inv_runFrom ended h
  obtain ⟨loaded, length⟩ := runFrom_inputs ended h
  refine ⟨fun early => (inv.fresh early).1, fun late w word => ?_⟩
  have started : t.phase ≠ .idle := by rcases late with phase | phase | phase <;> simp [phase]
  have full : t.dp.length = inp.nWords := by rw [inv.bufferFull late, State.nWords, length, RunInputs.nWords]
  exact decodes_of_bufferFull full (inv.bufferAgrees started) loaded word

end Sys2Proof.Machine
end

section
/-! PROOFS. The data movement instructions LOAD_CONST, LOAD_MEM and STORE_MEM (R141 to R144, R218): what each answers when
its indices name cells, and what the index check answers when they do not. -/

namespace Sys2Proof.Machine

variable {s t : State}

/-! ## Indices that name cells (R141 to R143) -/

theorem exec_loadConst_cell (rd : Fin Config.nreg) (c : Nat) :
    exec (.loadConst rd.val c) s = .next (s.writeCell rd (zextImm c)).advance :=
  withCell_of_lt rd.isLt

theorem exec_loadMem_cells (rd rs : Fin Config.nreg) :
    exec (.loadMem rd.val rs.val) s = .next (s.writeCell rd (s.cell rs)).advance :=
  (withCell_of_lt rd.isLt).trans (withCell_of_lt rs.isLt)

theorem exec_storeMem_cells (rs rd : Fin Config.nreg) :
    exec (.storeMem rs.val rd.val) s = .next (s.writeCell rd (s.cell rs)).advance :=
  (withCell_of_lt rs.isLt).trans (withCell_of_lt rd.isLt)

/-- A copy does not touch its source, not even a copy onto itself (R142, R143). -/
theorem State.cell_writeCell_cell (s : State) (rd rs : Fin Config.nreg) :
    (s.writeCell rd (s.cell rs)).cell rs = s.cell rs := by
  rw [State.cell_writeCell, ite_self]

/-- A copy of a cell onto itself only advances pc (R218). -/
theorem State.advance_writeCell_cell_self (s : State) (r : Fin Config.nreg) :
    (s.writeCell r (s.cell r)).advance = { s with pc := s.pc + 1 } := by
  rw [State.writeCell_cell_self, State.advance]

/-! ## The index check (R144) -/

/-- An instruction with the one index `B` faults exactly when that is 2048 or more. -/
theorem withCell_indexCheck {code b : Nat} {k : Fin Config.nreg → State} (completes : ∀ r, (k r).phase ≠ .faulted)
    (h : withCell s code .b b (fun r => .next (k r)) = .next t) :
    (t.phase = .faulted ↔ Config.nreg ≤ b) ∧
      (Config.nreg ≤ b → Raised (.regIndexOutOfRange s.pc code .b) s t) := by
  rcases Nat.lt_or_ge b Config.nreg with hb | hb
  · rw [withCell_of_lt hb] at h
    cases h
    exact ⟨iff_of_false (completes _) hb.not_ge, fun outside => absurd outside hb.not_ge⟩
  · rw [withCell_of_ge hb] at h
    cases h
    exact ⟨iff_of_true rfl hb, fun _ => raised_raise s _⟩

/-- An instruction with the indices `B` and `C` faults exactly when one of them is 2048 or more, and `B` goes first. -/
theorem withCell_withCell_indexCheck {code b c : Nat} {k : Fin Config.nreg → Fin Config.nreg → State}
    (completes : ∀ r q, (k r q).phase ≠ .faulted)
    (h : withCell s code .b b (fun r => withCell s code .c c fun q => .next (k r q)) = .next t) :
    (t.phase = .faulted ↔ Config.nreg ≤ b ∨ Config.nreg ≤ c) ∧
      (Config.nreg ≤ b → Raised (.regIndexOutOfRange s.pc code .b) s t) ∧
      (b < Config.nreg → Config.nreg ≤ c → Raised (.regIndexOutOfRange s.pc code .c) s t) := by
  rcases Nat.lt_or_ge b Config.nreg with hb | hb
  · rw [withCell_of_lt hb] at h
    rcases Nat.lt_or_ge c Config.nreg with hc | hc
    · rw [withCell_of_lt hc] at h
      cases h
      exact ⟨iff_of_false (completes _ _) (by omega), by omega, by omega⟩
    · rw [withCell_of_ge hc] at h
      cases h
      exact ⟨iff_of_true rfl (.inr hc), by omega, fun _ _ => raised_raise s _⟩
  · rw [withCell_of_ge hb] at h
    cases h
    exact ⟨iff_of_true rfl (.inl hb), fun _ => raised_raise s _, by omega⟩

/-! ## The statements -/

/-- Settles O25: the fields of the word, the write of a legal `B`, and the raise for any other. -/
theorem loadConstWritesTheImmediate : Obligations.LoadConstWritesTheImmediate := by
  refine ⟨fun w code => ?_, fun rd c s small => ?_, fun b c s outside => ?_⟩
  · obtain ⟨-, -, decoded, -⟩ := fieldsAreTheDeclaredBits w
    exact decoded code
  · refine ⟨_, exec_loadConst_cell rd c, ?_, rfl, onlyCellChanges_writeCell s rd _⟩
    rw [State.advance_cell, State.cell_writeCell_self, zextImm_toNat small]
  · exact ⟨_, withCell_of_ge outside, raised_raise s _⟩

/-- Settles O26: the fields of the word, the copy between legal indices, and the raise for `B`, else for `C`. -/
theorem loadMemCopiesCToB : Obligations.LoadMemCopiesCToB := by
  refine ⟨fun w code => ?_, fun rd rs s => ?_, fun b c s outside => ?_, fun b c s inside outside => ?_⟩
  · obtain ⟨-, -, -, decoded, -⟩ := fieldsAreTheDeclaredBits w
    exact decoded code
  · exact ⟨_, exec_loadMem_cells rd rs, s.cell_writeCell_self rd _, s.cell_writeCell_cell rd rs, rfl,
      onlyCellChanges_writeCell s rd _⟩
  · exact ⟨_, withCell_of_ge outside, raised_raise s _⟩
  · exact ⟨_, (withCell_of_lt (Nat.lt_succ_of_le inside)).trans (withCell_of_ge outside), raised_raise s _⟩

/-- Settles O27: as LOAD_MEM with the operands exchanged, and with legal indices the same next state. -/
theorem storeMemCopiesBToC : Obligations.StoreMemCopiesBToC := by
  refine ⟨fun w code => ?_, fun rs rd s => ?_, fun b c s outside => ?_, fun b c s inside outside => ?_⟩
  · obtain ⟨-, -, -, -, decoded, -⟩ := fieldsAreTheDeclaredBits w
    exact decoded code
  · exact ⟨_, exec_storeMem_cells rs rd, s.cell_writeCell_self rd _, s.cell_writeCell_cell rd rs, rfl,
      onlyCellChanges_writeCell s rd _, exec_loadMem_cells rd rs⟩
  · exact ⟨_, withCell_of_ge outside, raised_raise s _⟩
  · exact ⟨_, (withCell_of_lt (Nat.lt_succ_of_le inside)).trans (withCell_of_ge outside), raised_raise s _⟩

/-- Settles O30: an instruction that completes stays in EXECUTE, so the index check alone decides the fault; and every index
below 2^14 fits its field, whether or not it names a cell. -/
theorem indexCheckAtExecuteTime : Obligations.IndexCheckAtExecuteTime := by
  refine ⟨fun b c s t execute => ?_, fun b c hb hc => ?_⟩
  · have completes (rd : Fin Config.nreg) (v : CellValue) : (s.writeCell rd v).advance.phase ≠ .faulted := by
      simp [execute]
    exact ⟨withCell_indexCheck fun rd => completes rd _, withCell_withCell_indexCheck fun rd _ => completes rd _,
      withCell_withCell_indexCheck fun _ rd => completes rd _⟩
  · exact ⟨decodeWord_encode (Instr.wellFormed_loadConst_iff.2 ⟨hb, by omega⟩),
      decodeWord_encode (Instr.wellFormed_loadMem_iff.2 ⟨hb, hc⟩),
      decodeWord_encode (Instr.wellFormed_storeMem_iff.2 ⟨hb, hc⟩)⟩

/-- Settles O31: both are the copy of a cell onto itself. -/
theorem sameCellCopyChangesOnlyPc : Obligations.SameCellCopyChangesOnlyPc := by
  intro r s
  rw [exec_loadMem_cells, exec_storeMem_cells, State.advance_writeCell_cell_self]
  exact ⟨rfl, rfl⟩

end Sys2Proof.Machine
end

section
/-! PROOFS. ROR (R160 to R163): what it answers under each value of ROR_POLICY, whatever its fields. -/

namespace Sys2Proof.Machine

variable {s : State}

theorem exec_ror_of_fault (b c d e : Nat) (policy : s.rorPolicy = .fault) :
    exec (.ror b c d e) s = .next (s.raise (.unimplementedOpcode s.pc 10)) := by
  change execRor b c d e s = _
  rw [execRor, policy]

theorem exec_ror_of_nopReference (b c d e : Nat) (policy : s.rorPolicy = .nopReference) :
    exec (.ror b c d e) s = .next s.advance := by
  change execRor b c d e s = _
  rw [execRor, policy]

/-- Advancing pc leaves all but pc unchanged. -/
theorem sameRest_advance (s : State) : SameRest s s.advance where
  dp := s.advance_dp
  phase := s.advance_phase
  reports := ⟨s.advance_faultRecord, s.advance_status, s.advance_faultInfo, s.advance_dump⟩
  inputs := sameInputs_of_eq s.advance_prog s.advance_progLen s.advance_winStart s.advance_winEnd s.advance_rorPolicy

/-- Settles O28: the state that ROR answers is the raise itself, which the next step reports. -/
theorem rorFaultsUnderFaultPolicy : Obligations.RorFaultsUnderFaultPolicy :=
  fun b c d e s policy => ⟨_, exec_ror_of_fault b c d e policy, raised_raise s _, step_raise s _⟩

/-- Settles O29: the state that ROR answers differs from the one before in pc alone. -/
theorem rorOnlyAdvancesUnderNopReference : Obligations.RorOnlyAdvancesUnderNopReference :=
  fun b c d e s policy =>
    ⟨_, exec_ror_of_nopReference b c d e policy, s.advance_pc, s.advance_cell, sameRest_advance s⟩

end Sys2Proof.Machine
end

section
/-! PROOFS. Faults (R114, R170, R177, R179, R182, R185): what a raise records, where a step can stop, and which stage's fault
a run reports. -/

namespace Sys2Proof.Machine

variable {s : State} {inp : RunInputs} {f : Fault}

/-! ## The raise -/

/-- Settles O33: what a raise leaves is `raised_raise`, and the codes and the information are the rows of `faultCode` and
`faultInfoOf`. -/
theorem raiseRecordsTheFault : Obligations.RaiseRecordsTheFault := by
  intro s f
  refine ⟨raised_raise s f, step_raise s f, ?_, ?_, ?_, ?_, ?_⟩
  · rintro len rfl
    exact ⟨rfl, rfl⟩
  · rintro index code rfl
    exact ⟨rfl, rfl⟩
  · rintro index code rfl
    exact ⟨rfl, rfl⟩
  · rintro index code field rfl
    cases field <;> exact ⟨rfl, rfl⟩
  · rintro winStart winEnd rfl
    exact ⟨rfl, rfl⟩

/-! ## Where a step stops -/

/-- Each of the ends of an instruction is a next state. -/
theorem exists_exec_eq_next (i : Instr) (s : State) : ∃ t, exec i s = .next t := by
  rcases exec_cases i s with ⟨f, raises, -⟩ | ⟨rd, v, writes, -⟩ | advances
  · exact ⟨_, raises⟩
  · exact ⟨_, writes⟩
  · exact ⟨_, advances⟩

theorem exists_executeStage_eq_next (s : State) : ∃ t, executeStage s = .next t := by
  rcases Nat.lt_or_ge s.pc s.dp.length with inside | past
  · rw [executeStage_of_some (List.getElem?_eq_getElem inside)]
    exact exists_exec_eq_next _ s
  · exact ⟨_, executeStage_of_end past⟩

/-- Only a machine in FAULTED stops, with or without the invariant. -/
theorem exists_step_eq_next (notFaulted : s.phase ≠ .faulted) : ∃ t, step s = .next t := by
  cases phase : s.phase with
  | idle => exact ⟨_, step_of_idle phase⟩
  | frame => exact ⟨_, step_of_frame phase⟩
  | decode => exact ⟨_, step_of_decode phase⟩
  | execute =>
    rw [step_of_execute phase]
    exact exists_executeStage_eq_next s
  | dump => exact ⟨_, step_of_dump phase⟩
  | done => exact ⟨_, step_of_done phase⟩
  | faulted => exact absurd phase notFaulted

/-- With the invariant a FAULTED machine has a fault on record, which `STATUS` and `FAULT_INFO` show (R34, R35). -/
theorem Inv.exists_faultRecord (inv : Inv s) (faulted : s.phase = .faulted) :
    ∃ f, s.faultRecord = some f ∧ s.status = faultCode f ∧ s.faultInfo = faultInfoOf f := by
  have started : s.phase ≠ .idle := by simp [faulted]
  obtain ⟨f, record⟩ := Option.isSome_iff_exists.1 ((inv.recorded started).1 faulted)
  refine ⟨f, record, ?_, ?_⟩
  · rw [inv.statusAgrees, record, recordStatus]
  · rw [inv.infoAgrees, record, recordInfo]

/-- Settles O43: the record that the invariant gives is what a FAULTED machine stops with. -/
theorem stepStopsOnlyWithTheRecordedFault : Obligations.StepStopsOnlyWithTheRecordedFault := by
  intro s inv
  refine ⟨exists_step_eq_next, fun faulted => ?_⟩
  obtain ⟨f, record, status, info⟩ := inv.exists_faultRecord faulted
  exact ⟨f, record, step_of_faulted faulted record, status, info⟩

/-! ## The fault that a run reports (R179) -/

/-- The machine has stopped with a fault 2N + 6 steps after the host's supply exactly when the run function answers it: a run
that ends with Ok rests in DONE. -/
theorem runFrom_eq_fault_iff (ended : s.running = false) :
    runFrom s inp (2 * inp.nWords + 6) = .fault f ↔ run inp = .fault f := by
  have refines := machineRefinesTheRunFunction s inp ended
  cases outcome : run inp with
  | fault g =>
    rw [outcome] at refines
    simp [refines]
  | ok rows =>
    rw [outcome] at refines
    obtain ⟨t, reached, done, -⟩ := refines
    have rests : runFrom s inp (2 * inp.nWords + 6) = .next t := (steps_succ_last reached).trans (step_of_done done)
    simp [rests]

/-- A word with an assigned code decodes (R106). -/
theorem exists_decodeWord_eq_ok {w : Word} (assigned : opcodeOf w ∈ [57, 46, 11, 10]) : ∃ i, decodeWord w = .ok i := by
  cases decoded : decodeWord w with
  | ok i => exact ⟨i, rfl⟩
  | error e => exact absurd assigned (decodeWord_error_cases decoded).2

/-- The decode pass stops at the first word whose code is unassigned, with that word's index and code (R104, R106). -/
theorem decodePass_of_firstUnassigned {words : List Word} {k j : Nat} {w : Word} (word : words[j]? = some w)
    (unassigned : opcodeOf w ∉ [57, 46, 11, 10])
    (first : ∀ j' w', j' < j → words[j']? = some w' → opcodeOf w' ∈ [57, 46, 11, 10]) :
    decodePass k words = .error (.unknownOpcode (k + j) (opcodeOf w)) := by
  induction words generalizing k j with
  | nil => simp at word
  | cons v words ih =>
    rw [decodePass]
    cases j with
    | zero =>
      obtain rfl : v = w := by simpa using word
      rw [decodeWord_of_unassigned unassigned]
      rfl
    | succ j =>
      obtain ⟨i, decoded⟩ := exists_decodeWord_eq_ok (first 0 v j.succ_pos rfl)
      have later := ih (k := k + 1) word fun j' w' before => first (j' + 1) w' (Nat.succ_lt_succ before)
      rw [decoded, later, Nat.succ_add_eq_add_succ]

/-- No stage before DUMP looks at the window: a fault other than OutOfRange is the run's fault under every window (R116). -/
theorem run_eq_fault_of_otherWindow (ws we : Nat) (notOutOfRange : ∀ a b, f ≠ .outOfRange a b)
    (faults : run inp = .fault f) : run { inp with winStart := ws, winEnd := we } = .fault f := by
  by_cases whole : inp.prog.length % 8 = 0
  case neg =>
    cases (run_of_truncated whole).symm.trans faults
    exact run_of_truncated whole
  cases decoded : decodePass 0 (streamWords inp.prog) with
  | error g =>
    cases (run_of_undecodable whole decoded).symm.trans faults
    exact run_of_undecodable whole decoded
  | ok dp =>
    cases executed : executePass inp.rorPolicy 0 RegFile.zero dp with
    | error g =>
      cases (run_of_executeFault whole decoded executed).symm.trans faults
      exact run_of_executeFault whole decoded executed
    | ok x =>
      cases legal : windowLegal inp.winStart inp.winEnd with
      | true => cases (run_of_legalWindow whole decoded executed legal).symm.trans faults
      | false =>
        cases (run_of_illegalWindow whole decoded executed legal).symm.trans faults
        exact absurd rfl (notOutOfRange _ _)

/-- Settles O35: the machine reports the fault of the run function, which looks at the length first, then at the words in
order, and at the window last. -/
theorem stageOrderDecidesTheFault : Obligations.StageOrderDecidesTheFault := by
  intro s inp ended
  refine ⟨fun rest => ?_, fun whole j w word unassigned first => ?_, fun f ws we notOutOfRange stopped => ?_⟩
  · exact (runFrom_eq_fault_iff ended).2 (run_of_truncated rest)
  · simp only [← opcodeOf_eq_and] at unassigned first ⊢
    have undecodable := decodePass_of_firstUnassigned (k := 0) word unassigned first
    rw [Nat.zero_add] at undecodable
    exact (runFrom_eq_fault_iff ended).2 (run_of_undecodable whole undecodable)
  · have faults := (runFrom_eq_fault_iff ended).1 stopped
    exact (runFrom_eq_fault_iff ended).2 (run_eq_fault_of_otherWindow ws we notOutOfRange faults)

end Sys2Proof.Machine
end

section
/-! PROOFS. The start of a run (R210, R211), that every instruction has a meaning in every state, and when a run ends with Ok
(R220). -/

namespace Sys2Proof.Machine

variable {s t : State} {inp : RunInputs} {dp : List Instr} {i : Instr} {k : Nat} {w : Word} {words : List Word}

/-! ## The start of a run -/

/-- Settles O14: the step is `startRun`, which keeps nothing but the inputs. -/
theorem startingARunResets : Obligations.StartingARunResets :=
  fun s idle => ⟨_, step_of_idle idle, s.startRun_cell, rfl, rfl, rfl, rfl, rfl, rfl, rfl,
    sameInputs_of_eq rfl rfl rfl rfl rfl⟩

/-- Settles O15: after the first step both machines are in the one state that the inputs give, and go on from there. -/
theorem newRunInheritsNothing : Obligations.NewRunInheritsNothing := by
  intro s s' inp k ended ended'
  have goesOn {u : State} (ended : u.running = false) :
      runFrom u inp (1 + k) = steps k (inp.underWay .frame [] RegFile.zero 0) :=
    steps_add_of_next k (runFrom_started ended)
  rw [Nat.add_comm k 1, goesOn ended, goesOn ended']

/-! ## Instructions -/

/-- An instruction stays in its phase or faults. -/
theorem exec_phase (h : exec i s = .next t) : t.phase = s.phase ∨ t.phase = .faulted := by
  rcases exec_next_cases h with ⟨f, rfl⟩ | ⟨rd, v, rfl, -⟩ | rfl
  · exact .inr rfl
  · exact .inl rfl
  · exact .inl rfl

/-- Settles O24: each of the ends of an instruction is a next state, and none touches DP or the inputs. -/
theorem everyInstructionAnswersANextState : Obligations.EveryInstructionAnswersANextState := by
  intro i s
  obtain ⟨t, answers⟩ := exists_exec_eq_next i s
  obtain ⟨inputs, dp⟩ := exec_keeps_inputs_dp answers
  exact ⟨t, answers, dp, inputs, exec_phase answers⟩

/-! ## When the decode pass succeeds (R104, R106) -/

/-- A word that decodes has an assigned code (R106). -/
theorem opcodeOf_mem_of_decodeWord (h : decodeWord w = .ok i) : opcodeOf w ∈ [57, 46, 11, 10] := by
  by_contra unassigned
  cases (decodeWord_of_unassigned unassigned).symm.trans h

theorem decodePass_cons_eq_ok_iff :
    decodePass k (w :: words) = .ok dp ↔
      ∃ i is, decodeWord w = .ok i ∧ decodePass (k + 1) words = .ok is ∧ dp = i :: is := by
  rw [decodePass]
  cases decodeWord w with
  | error e => simp
  | ok i =>
    cases decodePass (k + 1) words with
    | error f => simp
    | ok is => simp [eq_comm]

/-- The decode pass succeeds exactly when every word has an assigned code. -/
theorem exists_decodePass_eq_ok_iff :
    (∃ dp, decodePass k words = .ok dp) ↔ ∀ w ∈ words, opcodeOf w ∈ [57, 46, 11, 10] := by
  induction words generalizing k with
  | nil => simp [decodePass]
  | cons w words ih =>
    rw [List.forall_mem_cons, ← ih (k := k + 1)]
    constructor
    · rintro ⟨dp, h⟩
      obtain ⟨i, is, decoded, later, -⟩ := decodePass_cons_eq_ok_iff.1 h
      exact ⟨opcodeOf_mem_of_decodeWord decoded, is, later⟩
    · rintro ⟨assigned, is, later⟩
      obtain ⟨i, decoded⟩ := exists_decodeWord_eq_ok assigned
      exact ⟨_, decodePass_cons_eq_ok_iff.2 ⟨i, is, decoded, later, rfl⟩⟩

/-- The decoded program has the instructions of the words and no others. -/
theorem mem_iff_of_decodePass (h : decodePass k words = .ok dp) : i ∈ dp ↔ ∃ w ∈ words, decodeWord w = .ok i := by
  induction words generalizing k dp with
  | nil => cases h; simp
  | cons w words ih =>
    obtain ⟨j, is, decoded, later, rfl⟩ := decodePass_cons_eq_ok_iff.1 h
    simp [ih later, decoded, eq_comm]

/-! ## When the execute pass succeeds (R114, R144, R161) -/

theorem lt_nreg_iff {n : Nat} : n < Config.nreg ↔ n ≤ 2047 := Nat.lt_succ_iff

/-- The indices of the instruction name cells, and it is no ROR under the policy `fault`. -/
def Completes (policy : RorPolicy) (i : Instr) : Prop := Instr.indicesLegal i ∧ (policy = .fault → i.code ≠ 10)

/-- Under these conditions and no others an instruction has its effect and does not fault. -/
theorem exists_runInstr_eq_ok_iff {policy : RorPolicy} {pc : Nat} {x : RegFile} :
    (∃ y, runInstr policy pc x i = .ok y) ↔ Completes policy i := by
  cases i with
  | loadConst b c =>
    by_cases hb : b < Config.nreg <;> simp [runInstr, Completes, Instr.indicesLegal, Instr.code, ← lt_nreg_iff, hb]
  | loadMem b c =>
    by_cases hb : b < Config.nreg <;> by_cases hc : c < Config.nreg <;>
      simp [runInstr, Completes, Instr.indicesLegal, Instr.code, ← lt_nreg_iff, hb, hc]
  | storeMem b c =>
    by_cases hb : b < Config.nreg <;> by_cases hc : c < Config.nreg <;>
      simp [runInstr, Completes, Instr.indicesLegal, Instr.code, ← lt_nreg_iff, hb, hc]
  | ror b c d e => cases policy <;> simp [runInstr, Completes, Instr.indicesLegal, Instr.code]

/-- The execute pass succeeds exactly when every instruction completes; what the cells hold plays no part. -/
theorem exists_executePass_eq_ok_iff {policy : RorPolicy} {pc : Nat} {x : RegFile} :
    (∃ y, executePass policy pc x dp = .ok y) ↔ ∀ i ∈ dp, Completes policy i := by
  induction dp generalizing pc x with
  | nil => simp [executePass]
  | cons i dp ih =>
    rw [List.forall_mem_cons, ← exists_runInstr_eq_ok_iff (pc := pc) (x := x), executePass]
    cases runInstr policy pc x i with
    | error f => simp
    | ok y => simp [ih]

/-! ## When a run ends with Ok (R220) -/

/-- A run of the run function that ends with Ok has passed all its stages (R122). -/
theorem stages_of_run_eq_ok {rows : List (Nat × CellValue)} (ok : run inp = .ok rows) :
    inp.prog.length % 8 = 0 ∧ windowLegal inp.winStart inp.winEnd = true ∧
      ∃ dp, decodePass 0 (streamWords inp.prog) = .ok dp ∧
        ∃ x, executePass inp.rorPolicy 0 RegFile.zero dp = .ok x := by
  by_cases whole : inp.prog.length % 8 = 0
  case neg => cases (run_of_truncated whole).symm.trans ok
  cases decoded : decodePass 0 (streamWords inp.prog) with
  | error f => cases (run_of_undecodable whole decoded).symm.trans ok
  | ok dp =>
    cases executed : executePass inp.rorPolicy 0 RegFile.zero dp with
    | error f => cases (run_of_executeFault whole decoded executed).symm.trans ok
    | ok x =>
      cases legal : windowLegal inp.winStart inp.winEnd with
      | false => cases (run_of_illegalWindow whole decoded executed legal).symm.trans ok
      | true => exact ⟨whole, rfl, dp, rfl, x, executed⟩

theorem succeeds_of_run_eq_ok {rows : List (Nat × CellValue)} (ok : run inp = .ok rows) : inp.Succeeds := by
  obtain ⟨whole, legal, dp, decoded, executed⟩ := stages_of_run_eq_ok ok
  have assigned := exists_decodePass_eq_ok_iff.1 ⟨dp, decoded⟩
  have completes {w i} (word : w ∈ streamWords inp.prog) (hi : decodeWord w = .ok i) :=
    exists_executePass_eq_ok_iff.1 executed i ((mem_iff_of_decodePass decoded).2 ⟨w, word, hi⟩)
  refine ⟨whole, ?_, fun w word i hi => (completes word hi).1, fun policy w word => ?_, windowLegal_iff.1 legal⟩
  · simpa only [opcodeOf_eq_and] using assigned
  · obtain ⟨i, hi⟩ := exists_decodeWord_eq_ok (assigned w word)
    rw [← opcodeOf_eq_and, opcodeOf_eq_code hi]
    exact (completes word hi).2 policy

theorem RunInputs.Succeeds.exists_run_eq_ok (succeeds : inp.Succeeds) : ∃ rows, run inp = .ok rows := by
  obtain ⟨whole, assigned, indices, noRor, window⟩ := succeeds
  simp only [← opcodeOf_eq_and] at assigned noRor
  obtain ⟨dp, decoded⟩ := exists_decodePass_eq_ok_iff (k := 0).2 assigned
  have completes (i : Instr) (inProgram : i ∈ dp) : Completes inp.rorPolicy i := by
    obtain ⟨w, word, hi⟩ := (mem_iff_of_decodePass decoded).1 inProgram
    exact ⟨indices w word i hi, fun policy => opcodeOf_eq_code hi ▸ noRor policy w word⟩
  obtain ⟨x, executed⟩ := exists_executePass_eq_ok_iff (pc := 0) (x := RegFile.zero).2 completes
  exact ⟨_, run_of_legalWindow whole decoded executed (windowLegal_iff.2 window)⟩

/-- The machine is DONE 2N + 5 steps after the host's supply exactly when the run function answers Ok: a DONE machine would
rest, where one that ends with a fault stops at the next step. -/
theorem runFrom_done_iff (ended : s.running = false) :
    (∃ t, runFrom s inp (2 * inp.nWords + 5) = .next t ∧ t.phase = .done) ↔ ∃ rows, run inp = .ok rows := by
  have refines := machineRefinesTheRunFunction s inp ended
  cases outcome : run inp with
  | ok rows =>
    rw [outcome] at refines
    obtain ⟨t, reached, done, -⟩ := refines
    exact iff_of_true ⟨t, reached, done⟩ ⟨rows, rfl⟩
  | fault f =>
    rw [outcome] at refines
    refine iff_of_false ?_ (by simp)
    rintro ⟨t, reached, done⟩
    cases refines.symm.trans ((steps_succ_last reached).trans (step_of_done done))

/-- Settles O47: the machine ends as the run function does, whose passes succeed exactly under the conditions of R220. -/
theorem runEndsOkExactlyWhen : Obligations.RunEndsOkExactlyWhen := by
  intro s inp ended
  rw [runFrom_done_iff ended]
  exact ⟨fun ⟨_, ok⟩ => succeeds_of_run_eq_ok ok, fun succeeds => succeeds.exists_run_eq_ok⟩

end Sys2Proof.Machine
end
